-- ==== Sys2Proof/Word.lean ====
section
/-! DEFINITION. The bit vectors of the engine: nibbles, blocks, bytes, counts, host words and word
addresses (00_scope.md R6, R7, R8, R9). -/

namespace Sys2Proof

/-- A nibble: an unsigned integer in `[0,15]`, 4 bits (R8). -/
abbrev Nibble := BitVec 4

/-- A block: three nibbles packed into 12 bits, position 0 most significant (R9). -/
abbrev Block := BitVec 12

/-- A byte of the RNG port (60_exceptions.md R113). -/
abbrev Byte := BitVec 8

/-- The 16-bit counts `NSAMP`, `NPAIRS` and `CNT[k]` (R7). -/
abbrev Count := BitVec 16

/-- A 32-bit word of the host port (R7). -/
abbrev Word := BitVec 32

/-- A 12-bit word address of the host register space (R7, 20_memory.md R31). -/
abbrev Addr := BitVec 12

end Sys2Proof
end

