-- ==== Sys2Proof/Config.lean ====
section
/-! DEFINITION. What one build of the engine fixes, and the one value the spec leaves open. The
tables of this build, `sbox` and `sinv`, are in Machine/Tables.lean. -/

namespace Sys2Proof

/-- The pair-buffer capacity `PAIR_CAP` (00_scope.md R7, 10_state.md R25). -/
def Config.pairCap : Nat := 2048

/-- RNG bytes taken by one key schedule (00_scope.md R6). -/
def Config.keyBytes : Nat := 12

/-- RNG bytes taken by one plaintext (00_scope.md R6). -/
def Config.sampleBytes : Nat := 3

/-- The unspecified 32-bit word that the `n`-th read of a VOLATILE address while busy returns
(20_memory.md R36: `draw32()`). A free value: it has no body, so nothing constrains it.
Log entry 4. -/
opaque Config.draw32 : Nat → Word

/-- A substitution table and the table given as its inverse: what a configuration supplies
(10_state.md R17). -/
structure SboxPair where
  sbox : Vector Nibble 16
  sinv : Vector Nibble 16
deriving DecidableEq, Repr

/-- The sixteen nibbles in rising order. -/
def nibbles : List Nibble := [0, 1, 2, 3, 4, 5, 6, 7, 8, 9, 10, 11, 12, 13, 14, 15]

/-- Entry `x` of a 16-entry table. -/
def nget {α : Type} (t : Vector α 16) (x : Nibble) : α := t[x.toNat]'x.isLt

/-- The 16-entry table whose entry `x` is `f x`. -/
def tabulate {α : Type} (f : Nibble → α) : Vector α 16 :=
  #v[f 0, f 1, f 2, f 3, f 4, f 5, f 6, f 7, f 8, f 9, f 10, f 11, f 12, f 13, f 14, f 15]

end Sys2Proof
end

