-- ==== Sys2Proof/Syntax.lean ====
section
/-! DEFINITION. The commands (one constructor per row of spec/opcode_table.json), the places of the
host register space, and the transactions of a host program. -/

namespace Sys2Proof

/-- The sixteen commands of 30_encoding.md R52. No command carries an operand (R51). -/
inductive Instr where
  | sub | subi | diff | diffi | mix
  | encr | decr | enclr | declr
  | enc | dec
  | filt
  | keylock | keyrand
  | pairgen | recover
deriving DecidableEq, Repr

/-- The places of the address map (20_memory.md R32), each with its index. `unmapped a` is the
address `a` of one of the four unmapped ranges. -/
inductive Loc where
  | cmd | status
  | opa | opb | idiff | tdiff | fmask | kmask | nsamp
  | result | npairs | cand
  | cnt (k : Nibble)
  | rk (r : BitVec 2)
  | sboxt (x : Nibble)
  | sinvt (x : Nibble)
  | ddt (i o : Nibble)
  | pxt (i j : Nibble)
  | pbuf (e : BitVec 11)
  | unmapped (a : Addr)
deriving DecidableEq, Repr

/-- One item of a host program (30_encoding.md R48, R49): a read transaction, a write transaction,
or the pseudo-instruction `WAIT`, which repeats a read of `STATUS` until the value read has bit 0
clear. -/
inductive HostOp where
  | read (a : Addr)
  | write (a : Addr) (v : Word)
  | wait
deriving DecidableEq, Repr

end Sys2Proof
end

