-- ==== Sys2Proof/WellFormed.lean ====
section
/-! DEFINITION. The checks: which command words are legal, which places are places of the map, which
configurations are admitted. Each is a Bool. -/

namespace Sys2Proof

/-- A command word is legal when its opcode field `[4:0]` is one of `0x01..0x10` and its reserved
field `[31:5]` is 0 (30_encoding.md R50, R53). -/
def cmdWordOk (w : Word) : Bool :=
  1 ≤ w.toNat % 32 && w.toNat % 32 ≤ 16 && w.toNat / 32 == 0

/-- Every command is well formed: it carries no operand that could be out of range (R51). -/
def Instr.wf (_ : Instr) : Bool := true

/-- The four unmapped ranges of 20_memory.md R32. -/
def unmappedRange (a : Addr) : Bool :=
  (0x00C ≤ a.toNat && a.toNat ≤ 0x00F) || (0x024 ≤ a.toNat && a.toNat ≤ 0x02F) ||
    (0x050 ≤ a.toNat && a.toNat ≤ 0x0FF) || (0x300 ≤ a.toNat && a.toNat ≤ 0x7FF)

/-- A place is well formed unless it calls a mapped address unmapped. -/
def Loc.wf : Loc → Bool
  | .unmapped a => unmappedRange a
  | _ => true

/-- The admission check of 10_state.md R17: `sbox` is a permutation of `[0,15]` (no entry occurs
twice) and the two tables undo each other in both orders (R16). -/
def SboxPair.wf (t : SboxPair) : Bool :=
  decide t.sbox.toList.Nodup &&
    nibbles.all (fun x => nget t.sinv (nget t.sbox x) == x) &&
    nibbles.all (fun x => nget t.sbox (nget t.sinv x) == x)

end Sys2Proof
end

