-- ==== Sys2Proof/Decode.lean ====
section
/-! DEFINITION. The command decoder, total on every 32-bit word, and the encoder after it
(30_encoding.md R50, R52, R53); the address decoder and its inverse (20_memory.md R32). -/

namespace Sys2Proof

/-- Field `op`, bits `[4:0]` of a command word (R50). -/
def opField (w : Word) : BitVec 5 := w.extractLsb' 0 5

/-- Field `rsv`, bits `[31:5]` of a command word (R50). -/
def rsvField (w : Word) : BitVec 27 := w.extractLsb' 5 27

/-- The opcode map of R52; `0x00` and `0x11..0x1F` are reserved (R53). -/
def decodeOp (op : BitVec 5) : Option Instr :=
  match op.toNat with
  | 0x01 => some .sub
  | 0x02 => some .subi
  | 0x03 => some .diff
  | 0x04 => some .diffi
  | 0x05 => some .mix
  | 0x06 => some .encr
  | 0x07 => some .decr
  | 0x08 => some .enclr
  | 0x09 => some .declr
  | 0x0A => some .enc
  | 0x0B => some .dec
  | 0x0C => some .filt
  | 0x0D => some .keylock
  | 0x0E => some .keyrand
  | 0x0F => some .pairgen
  | 0x10 => some .recover
  | _ => none

/-- The command a word stands for; `none` is an illegal word, whose issue records `ILLEGAL`
(R53, R54). A decoder reads the whole word (R50). -/
def decodeWord (w : Word) : Option Instr :=
  if rsvField w = 0 then decodeOp (opField w) else none

/-- The command word of a command: column "word" of R52. -/
def encode : Instr → Word
  | .sub => 0x00000001
  | .subi => 0x00000002
  | .diff => 0x00000003
  | .diffi => 0x00000004
  | .mix => 0x00000005
  | .encr => 0x00000006
  | .decr => 0x00000007
  | .enclr => 0x00000008
  | .declr => 0x00000009
  | .enc => 0x0000000A
  | .dec => 0x0000000B
  | .filt => 0x0000000C
  | .keylock => 0x0000000D
  | .keyrand => 0x0000000E
  | .pairgen => 0x0000000F
  | .recover => 0x00000010

/-- The command word whose low `nbits` bits are those of `w` and whose other bits are 0. -/
def tableWord (nbits w : Nat) : Word := BitVec.ofNat 32 (w % 2 ^ nbits)

/-- The command the decoder reads from a row of spec/opcode_table.json. -/
def decodeTableWord (nbits w : Nat) : Option Instr := decodeWord (tableWord nbits w)

/-- The named registers at word addresses `0x000..0x00B` (20_memory.md R32). -/
def locateLow (n : Nat) : Loc :=
  match n with
  | 0x0 => .cmd
  | 0x1 => .status
  | 0x2 => .opa
  | 0x3 => .opb
  | 0x4 => .idiff
  | 0x5 => .tdiff
  | 0x6 => .fmask
  | 0x7 => .kmask
  | 0x8 => .nsamp
  | 0x9 => .result
  | 0xA => .npairs
  | _ => .cand

/-- The place a word address names (20_memory.md R32). -/
def locate (a : Addr) : Loc :=
  let n := a.toNat
  if n < 0x00C then locateLow n
  else if n < 0x010 then .unmapped a
  else if n < 0x020 then .cnt (BitVec.ofNat 4 (n - 0x010))
  else if n < 0x024 then .rk (BitVec.ofNat 2 (n - 0x020))
  else if n < 0x030 then .unmapped a
  else if n < 0x040 then .sboxt (BitVec.ofNat 4 (n - 0x030))
  else if n < 0x050 then .sinvt (BitVec.ofNat 4 (n - 0x040))
  else if n < 0x100 then .unmapped a
  else if n < 0x200 then .ddt (BitVec.ofNat 4 ((n - 0x100) / 16)) (BitVec.ofNat 4 ((n - 0x100) % 16))
  else if n < 0x300 then .pxt (BitVec.ofNat 4 ((n - 0x200) / 16)) (BitVec.ofNat 4 ((n - 0x200) % 16))
  else if n < 0x800 then .unmapped a
  else .pbuf (BitVec.ofNat 11 (n - 0x800))

/-- The word address of a place (20_memory.md R32); an assembler resolves a register name with it
(30_encoding.md R48). -/
def Loc.addr : Loc → Addr
  | .cmd => 0x000
  | .status => 0x001
  | .opa => 0x002
  | .opb => 0x003
  | .idiff => 0x004
  | .tdiff => 0x005
  | .fmask => 0x006
  | .kmask => 0x007
  | .nsamp => 0x008
  | .result => 0x009
  | .npairs => 0x00A
  | .cand => 0x00B
  | .cnt k => BitVec.ofNat 12 (0x010 + k.toNat)
  | .rk r => BitVec.ofNat 12 (0x020 + r.toNat)
  | .sboxt x => BitVec.ofNat 12 (0x030 + x.toNat)
  | .sinvt x => BitVec.ofNat 12 (0x040 + x.toNat)
  | .ddt i o => BitVec.ofNat 12 (0x100 + 16 * i.toNat + o.toNat)
  | .pxt i j => BitVec.ofNat 12 (0x200 + 16 * i.toNat + j.toNat)
  | .pbuf e => BitVec.ofNat 12 (0x800 + e.toNat)
  | .unmapped a => a

end Sys2Proof
end

