-- ==== Sys2Proof/Machine/State.lean ====
section
/-! DEFINITION. The state: the engine's record of 10_state.md R14, and beside it the host, the RNG and
the order in which the agents move, as plain data. Faults, refusals, and the state after reset. -/

namespace Sys2Proof.Machine

/-- What stops the machine with a fault: nothing. The hardware has no trap and no step that stops
it; every error is recorded in `STATUS` (60_exceptions.md R107, R100), and its sticky FAULT is a bit
of the engine's state (R102). Log entry 14. -/
inductive Fault where
deriving DecidableEq, Repr

/-- Why the model refuses. -/
inductive Refusal where
  /-- Raised by the arm of a command that has no meaning yet; no arm raises it. Safe. -/
  | notModelled (mnemonic : String)
  /-- Raised by `construct` alone, before any step, for a substitution pair that is not mutually
  inverse (10_state.md R17, 60_exceptions.md R105). Safe: no instance is built. -/
  | configurationError
  /-- Raised by `construct` alone, before any step, for an admitted pair other than the one of this
  build (10_state.md R15; 92_eei_decisions.md D6: refused by name rather than modelled wrongly).
  Safe: no instance is built. -/
  | otherInstance
deriving DecidableEq, Repr

/-- The result codes of `STATUS.ERR` (60_exceptions.md R100). The codes `0x6..0xF` are never
produced and have no constructor (log entry 11). -/
inductive ErrKind where
  | ok | illegal | nokey | keyset | keypart | faulted
deriving DecidableEq, Repr

/-- A retained ciphertext pair `(c0, c1)`: one entry of the pair buffer (10_state.md R25). -/
structure Pair where
  c0 : Block
  c1 : Block
deriving DecidableEq, Repr

/-- The pair buffer's contents as (entry number, pair), in one canonical form (`Memory.wf`): entry
numbers strictly rising and below `PAIR_CAP`, and no listed entry equal to `(0x000, 0x000)`, which
is what an unlisted entry reads as (10_state.md R25, 70_reset_and_hazards.md R118). The engine has
no other addressable storage (20_memory.md R31). Log entry 9. -/
abbrev Memory := List (Nat × Pair)

/-- The engine: the record of 10_state.md R14. `busy` is not stored a second time: it is
`Engine.busy`, true while `pend` holds a command (log entry 1). -/
structure Engine where
  /-- the accepted command while BUSY = 1 (hidden, R30) -/
  pend : Option Instr
  /-- RNG bytes delivered to the pending command, oldest first (hidden, R30) -/
  rngq : List Byte
  keyv : Bool
  rkw : BitVec 4
  fault : Bool
  wdb : Bool
  wdl : Bool
  povf : Bool
  err : ErrKind
  opa : Block
  opb : Block
  idiff : Block
  tdiff : Block
  fmask : Block
  kmask : Block
  nsamp : Count
  result : Block
  npairs : Count
  cand0 : Nibble
  cand1 : Nibble
  cnt : Vector Count 16
  rk : Vector Block 4
  pbuf : Memory
deriving DecidableEq, Repr

/-- Who takes the next step (10_state.md R13), or the reset input (70_reset_and_hazards.md R119). -/
inductive Turn where
  | host
  | rng
  | engine
  | reset
deriving DecidableEq, Repr

/-- The engine and, around it, the agents of 10_state.md R13 as plain data. -/
structure State where
  eng : Engine
  /-- the transactions the host has still to perform, in program order (30_encoding.md R48);
  log entry 5 -/
  prog : List HostOp
  /-- which agent moves at each coming step; log entry 2 -/
  turns : List Turn
  /-- the bytes the RNG will offer, in order: the parameter `RNG` (60_exceptions.md R113);
  log entry 3 -/
  rng : List Byte
  /-- the word the host's last read returned (20_memory.md R33); log entry 6 -/
  rdata : Word
  /-- how many unspecified reads have been answered; numbers the free values; log entry 4 -/
  draws : Nat
deriving DecidableEq, Repr

/-- The engine after reset (70_reset_and_hazards.md R118). -/
def Engine.reset : Engine where
  pend := none
  rngq := []
  keyv := false
  rkw := 0b0000
  fault := false
  wdb := false
  wdl := false
  povf := false
  err := .ok
  opa := 0x000
  opb := 0x000
  idiff := 0x000
  tdiff := 0x000
  fmask := 0x000
  kmask := 0x000
  nsamp := 0x0000
  result := 0x000
  npairs := 0x0000
  cand0 := 0x0
  cand1 := 0x0
  cnt := tabulate (fun _ => 0x0000)
  rk := #v[0x000, 0x000, 0x000, 0x000]
  pbuf := []

/-- The machine right after reset: the engine as R118 says, and an environment that has nothing
queued (log entries 2 to 6: DESIGN CHOICE, the spec gives the environment no reset). -/
def State.reset : State where
  eng := Engine.reset
  prog := []
  turns := []
  rng := []
  rdata := 0x00000000
  draws := 0

end Sys2Proof.Machine
end

