-- ==== Sys2Proof/Machine/Operands.lean ====
section
/-! DEFINITION. How blocks, register fields and host words are cut out of and packed into bits
(00_scope.md R9, R12; 10_state.md R29; 20_memory.md R37), and how RNG bytes become nibbles. -/

namespace Sys2Proof.Machine

/-- Nibble `p` of a block: `b[p] = b[11-4p : 8-4p]` (R9). -/
def nib (b : Block) (p : Fin 3) : Nibble :=
  match p with
  | 0 => b.extractLsb' 8 4
  | 1 => b.extractLsb' 4 4
  | 2 => b.extractLsb' 0 4

/-- `pack(n0,n1,n2)`: position 0 most significant (R9). -/
def pack (n0 n1 n2 : Nibble) : Block := n0 ++ n1 ++ n2

/-- The block field `[11:0]` of a written host word; the other bits are ignored (R29). -/
def blockField (v : Word) : Block := v.extractLsb' 0 12

/-- The count field `[15:0]` of a written host word (R29). -/
def countField (v : Word) : Count := v.extractLsb' 0 16

/-- `zext_32`: a field as the host reads it (R11, R29). -/
def zext32 {n : Nat} (x : BitVec n) : Word := x.setWidth 32

/-- A pair-buffer entry as the host reads it: `c0` in `[11:0]`, `c1` in `[27:16]`, the other bits
zero (20_memory.md R37). -/
def pairWord (p : Pair) : Word := 0#4 ++ p.c1 ++ 0#4 ++ p.c0

/-- `CAND` as the host reads it: `CAND0` in `[3:0]`, `CAND1` in `[7:4]` (10_state.md R23). -/
def candWord (cand0 cand1 : Nibble) : Word := 0#24 ++ cand1 ++ cand0

/-- The nibble an RNG byte gives: its low 4 bits (42_cipher.md R77, 44_attack.md R91). -/
def lowNibble (b : Byte) : Nibble := b.extractLsb' 0 4

/-- The block three RNG bytes give, in delivery order, positions 0, 1, 2 (44_attack.md R91). -/
def drawBlock (b0 b1 b2 : Byte) : Block := pack (lowNibble b0) (lowNibble b1) (lowNibble b2)

/-- `guess(km, k)`: the nibble `k` broadcast to the positions the mask lets through, bit by bit
(00_scope.md R12; 44_attack.md R89, R95). -/
def guess (km : Block) (k : Nibble) : Block :=
  pack (nib km 0 &&& k) (nib km 1 &&& k) (nib km 2 &&& k)

/-- One position of `dmask`: `0xF` where the difference is nonzero, else `0x0` (00_scope.md R12). -/
def maskNibble (n : Nibble) : Nibble := if n = 0 then 0x0 else 0xF

/-- `dmask(t)`, the mask derived from a target difference (00_scope.md R12; 44_attack.md R94). -/
def dmask (t : Block) : Block :=
  pack (maskNibble (nib t 0)) (maskNibble (nib t 1)) (maskNibble (nib t 2))

end Sys2Proof.Machine
end

