-- ==== Sys2Proof/Machine/Flags.lean ====
section
/-! DEFINITION. The `STATUS` register: its fields, its packing and its write-one-to-clear bits
(10_state.md R27, R28; 60_exceptions.md R100). -/

namespace Sys2Proof.Machine

/-- `STATUS.BUSY`: 1 from a command's acceptance to its completion (R27). Log entry 1. -/
def Engine.busy (e : Engine) : Bool := e.pend.isSome

/-- The 4-bit code of a result in `STATUS.ERR` (60_exceptions.md R100). -/
def errCode : ErrKind → BitVec 4
  | .ok => 0x0
  | .illegal => 0x1
  | .nokey => 0x2
  | .keyset => 0x3
  | .keypart => 0x4
  | .faulted => 0x5

/-- `STATUS` as the host reads it, from bit 31 down: reserved `[31:16]`, ERR `[15:12]`, reserved
`[11:10]`, POVF, WDL, WDB, FAULT, RKW `[5:2]`, KEYV, BUSY (R27, 20_memory.md R33). -/
def statusWord (e : Engine) : Word :=
  0#16 ++ errCode e.err ++ 0#2 ++ BitVec.ofBool e.povf ++ BitVec.ofBool e.wdl ++
    BitVec.ofBool e.wdb ++ BitVec.ofBool e.fault ++ e.rkw ++ BitVec.ofBool e.keyv ++
    BitVec.ofBool e.busy

/-- A host write of `v` to `STATUS` while idle: bit 7 clears WDB, bit 8 clears WDL, every other bit
is ignored (R28). -/
def statusWrite (v : Word) (e : Engine) : Engine :=
  { e with wdb := e.wdb && !v.getLsbD 7, wdl := e.wdl && !v.getLsbD 8 }

/-- `RKW` with the bit of round key `r` set (R27, 42_cipher.md R74). -/
def setRkw (r : BitVec 2) (rkw : BitVec 4) : BitVec 4 := rkw ||| (1#4 <<< r.toNat)

end Sys2Proof.Machine
end

