-- ==== Sys2Proof/Machine/Tables.lean ====
section
/-! DEFINITION. The constant tables of this build: `SBOX`, `SINV`, the difference distribution table
and the pair-XOR table (10_state.md R15, R16; 43_tables.md R82, R86), and the admission of a
configuration (10_state.md R17). -/

namespace Sys2Proof.Machine

/-- `SBOX` (10_state.md R15). -/
def sbox : Vector Nibble 16 := #v[6, 7, 11, 12, 9, 8, 4, 0, 14, 5, 3, 13, 1, 2, 15, 10]

/-- `SINV` (10_state.md R16). -/
def sinv : Vector Nibble 16 := #v[7, 12, 13, 10, 6, 9, 0, 1, 5, 4, 15, 2, 3, 11, 8, 14]

/-- The configuration of this build (92_eei_decisions.md D6). -/
def buildTables : SboxPair where
  sbox := sbox
  sinv := sinv

/-- The 256 ordered pairs of nibbles, first component slowest: the loops of R82. -/
def nibblePairs : List (Nibble × Nibble) := nibbles.flatMap fun x => nibbles.map fun y => (x, y)

/-- `DDT[i][o]`: how many ordered pairs `(x, y)` have input difference `i` and output difference
`o` (R82). -/
def ddtEntry (t : Vector Nibble 16) (i o : Nibble) : Nat :=
  nibblePairs.countP fun p => p.1 ^^^ p.2 == i && nget t p.1 ^^^ nget t p.2 == o

/-- The update the inner loop of R82 makes: 1 added to one cell of the matrix. -/
def bumpCell (t : Vector Nibble 16) (m : Vector (Vector Nat 16) 16) (p : Nibble × Nibble) :
    Vector (Vector Nat 16) 16 :=
  let i := p.1 ^^^ p.2
  let o := nget t p.1 ^^^ nget t p.2
  m.set i.toNat ((nget m i).set o.toNat (nget (nget m i) o + 1) o.isLt) i.isLt

/-- `buildDDT(SBOX)` as the loops of R82 build it: a zero matrix, then one increment for every
ordered pair. -/
def buildDDT (t : Vector Nibble 16) : Vector (Vector Nat 16) 16 :=
  nibblePairs.foldl (bumpCell t) (tabulate fun _ => tabulate fun _ => 0)

/-- `PXT[i][j] = SBOX[i] ⊕ SBOX[j]` (R86). -/
def pxtEntry (t : Vector Nibble 16) (i j : Nibble) : Nibble := nget t i ^^^ nget t j

/-- Building an instance from a configuration, before any step: a pair that fails the check of R17
is refused (60_exceptions.md R105), an admitted pair that is not this build's is another hardware
and refused by name (92_eei_decisions.md D6), and this build's pair gives the machine after reset.
Log entry 10. -/
def construct (t : SboxPair) : Host.Outcome State Fault Refusal :=
  if !t.wf then .refused .configurationError
  else if t ≠ buildTables then .refused .otherInstance
  else .next State.reset

end Sys2Proof.Machine
end

