-- ==== Sys2Proof/Machine/Ops.lean ====
section
/-! DEFINITION. The shared operations: the pair buffer, recording an error, accepting a command,
completing it, and the two phases of a command (30_encoding.md R54, R55; 60_exceptions.md R101,
R102). -/

namespace Sys2Proof.Machine

/-! ### The pair buffer -/

/-- What an unlisted entry of the pair buffer reads as (10_state.md R25, 70_reset_and_hazards.md
R118). -/
def Memory.unlisted : Pair := ⟨0x000, 0x000⟩

/-- The canonical form from entry number `lo` on. -/
def Memory.wfFrom : Nat → Memory → Bool
  | _, [] => true
  | lo, (e, p) :: m =>
    decide (lo ≤ e) && decide (e < Config.pairCap) && decide (p ≠ Memory.unlisted) &&
      Memory.wfFrom (e + 1) m

/-- The canonical form of the pair buffer: equal contents are equal lists. -/
def Memory.wf (m : Memory) : Bool := Memory.wfFrom 0 m

/-- Entry `e` of the pair buffer. -/
def Memory.read : Memory → Nat → Pair
  | [], _ => Memory.unlisted
  | (k, p) :: m, e => if k = e then p else Memory.read m e

/-- The pairs of a list as buffer entries numbered from `e` on. Entries from `PAIR_CAP` on are not
stored; an entry equal to what an unlisted one reads as is not listed. -/
def Memory.fill : Nat → List Pair → Memory
  | _, [] => []
  | e, p :: ps =>
    if Config.pairCap ≤ e then []
    else if p = Memory.unlisted then Memory.fill (e + 1) ps
    else (e, p) :: Memory.fill (e + 1) ps

/-- The whole buffer written from a list of pairs: entry `e` is pair `e`, the rest zero
(44_attack.md R93). -/
def Memory.ofPairs (ps : List Pair) : Memory := Memory.fill 0 ps

/-! ### Errors -/

/-- `raise Error(c)`: `err <- c` (60_exceptions.md R101). `NOKEY` alone also sets the sticky FAULT
(R102, 30_encoding.md R54). This is the whole of "taking an exception" on this hardware: nothing is
saved, no mode changes and no control is transferred (R107), and there is no return (R108). -/
def raise (c : ErrKind) (s : State) : Host.Outcome State Fault Refusal :=
  .next { s with eng := { s.eng with err := c, fault := s.eng.fault || decide (c = .nokey) } }

/-! ### Issue -/

/-- Column "key" of 30_encoding.md R52: what a command asks of the key schedule at issue. -/
inductive KeyRule where
  | free       -- no
  | required   -- yes: KEYV = 1
  | unset      -- must be 0
  | lockable   -- must be 0, and RKW = 0b1111 (KEYLOCK)
deriving DecidableEq, Repr

/-- The key check of `Issue`, in the order of R54; the first that applies decides. -/
def keyError (k : KeyRule) (e : Engine) : Option ErrKind :=
  match k with
  | .free => none
  | .required => if e.keyv then none else some .nokey
  | .unset => if e.keyv then some .keyset else none
  | .lockable =>
    if e.keyv then some .keyset else if e.rkw ≠ 0b1111 then some .keypart else none

/-- Acceptance: `err <- OK; busy <- 1; pend <- op`, and nothing else (R54). -/
def accept (i : Instr) (s : State) : Host.Outcome State Fault Refusal :=
  .next { s with eng := { s.eng with err := .ok, pend := some i } }

/-- `Issue` for a legal command word (R54): FAULTED first, then the key check, then acceptance. -/
def issue (i : Instr) (k : KeyRule) (s : State) : Host.Outcome State Fault Refusal :=
  if s.eng.fault then raise .faulted s
  else
    match keyError k s.eng with
    | some c => raise c s
    | none => accept i s

/-! ### Completion -/

/-- `need`: how many RNG bytes a command takes, column "RNG" of R52 (NSAMP read at completion,
R55). -/
def need (i : Instr) (e : Engine) : Nat :=
  match i with
  | .sub | .subi | .diff | .diffi | .mix => 0
  | .encr | .decr | .enclr | .declr => 0
  | .enc | .dec => 0
  | .filt => 0
  | .keylock => 0
  | .keyrand => Config.keyBytes
  | .pairgen | .recover => Config.sampleBytes * e.nsamp.toNat

/-- The engine's step is enabled: a command is pending and all its bytes have arrived (R55). -/
def Engine.ready (e : Engine) : Bool :=
  match e.pend with
  | some i => e.rngq.length == need i e
  | none => false

/-- The RNG's step is enabled: a command is pending and wants more bytes (60_exceptions.md R113). -/
def Engine.wantsByte (e : Engine) : Bool :=
  match e.pend with
  | some i => decide (e.rngq.length < need i e)
  | none => false

/-- The end of a command, in the same transition as its results: `busy <- 0`, and the delivered
bytes are consumed (R55, 10_state.md R30). -/
def Engine.finish (e : Engine) : Engine := { e with pend := none, rngq := [] }

/-- Completion of command `i` with the results `f` writes: one atomic transition (R55). While the
command's bytes have not all arrived, or another command is the pending one, the engine has no step
for `i` and nothing changes (log entry 7). -/
def complete (i : Instr) (f : Engine → Engine) (s : State) : Host.Outcome State Fault Refusal :=
  if s.eng.pend = some i ∧ s.eng.rngq.length = need i s.eng then
    .next { s with eng := (f s.eng).finish }
  else .next s

/-- The two phases of command `i`: while the engine is idle its issue (R54), while it is busy its
completion (R55). `f` is the command's `Exec_<mnemonic>`. Log entry 7. -/
def runCommand (i : Instr) (k : KeyRule) (f : Engine → Engine) (s : State) :
    Host.Outcome State Fault Refusal :=
  if s.eng.busy then complete i f s else issue i k s

end Sys2Proof.Machine
end

