-- ==== Sys2Proof/Machine/Layers.lean ====
section
/-! DEFINITION. The substitution, diffusion and key-mixing layers, and the commands SUB, SUBI, DIFF,
DIFFI, MIX (40_layers.md). -/

namespace Sys2Proof.Machine

/-- `substitute(T, b)`: each nibble through the table (R58). -/
def substitute (t : Vector Nibble 16) (b : Block) : Block :=
  pack (nget t (nib b 0)) (nget t (nib b 1)) (nget t (nib b 2))

/-- `diffuse(b)` (R59). -/
def diffuse (b : Block) : Block :=
  let n0 := nib b 0
  let n1 := nib b 1
  let n2 := nib b 2
  pack
    ((n0 &&& 0x8) ^^^ ((n1 &&& 0x2) <<< 1) ^^^ ((n0 &&& 0x4) >>> 1) ^^^ (n1 &&& 0x1))
    (((n0 &&& 0x2) <<< 2) ^^^ ((n2 &&& 0x8) >>> 1) ^^^ ((n0 &&& 0x1) <<< 1) ^^^ ((n2 &&& 0x4) >>> 2))
    ((n1 &&& 0x8) ^^^ ((n2 &&& 0x2) <<< 1) ^^^ ((n1 &&& 0x4) >>> 1) ^^^ (n2 &&& 0x1))

/-- `inverseDiffuse(b)` (R60). -/
def inverseDiffuse (b : Block) : Block :=
  let o0 := nib b 0
  let o1 := nib b 1
  let o2 := nib b 2
  pack
    ((o0 &&& 0x8) ^^^ ((o0 &&& 0x2) <<< 1) ^^^ ((o1 &&& 0x8) >>> 2) ^^^ ((o1 &&& 0x2) >>> 1))
    ((o2 &&& 0x8) ^^^ ((o2 &&& 0x2) <<< 1) ^^^ ((o0 &&& 0x4) >>> 1) ^^^ (o0 &&& 0x1))
    (((o1 &&& 0x4) <<< 1) ^^^ ((o1 &&& 0x1) <<< 2) ^^^ ((o2 &&& 0x4) >>> 1) ^^^ (o2 &&& 0x1))

/-- `SUB` (R62). -/
def execSub (s : State) : Host.Outcome State Fault Refusal :=
  runCommand .sub .free (fun e => { e with result := substitute sbox e.opa }) s

/-- `SUBI` (R63). -/
def execSubi (s : State) : Host.Outcome State Fault Refusal :=
  runCommand .subi .free (fun e => { e with result := substitute sinv e.opa }) s

/-- `DIFF` (R64). -/
def execDiff (s : State) : Host.Outcome State Fault Refusal :=
  runCommand .diff .free (fun e => { e with result := diffuse e.opa }) s

/-- `DIFFI` (R65). -/
def execDiffi (s : State) : Host.Outcome State Fault Refusal :=
  runCommand .diffi .free (fun e => { e with result := inverseDiffuse e.opa }) s

/-- `MIX` (R66). -/
def execMix (s : State) : Host.Outcome State Fault Refusal :=
  runCommand .mix .free (fun e => { e with result := e.opa ^^^ e.opb }) s

end Sys2Proof.Machine
end

