-- ==== Sys2Proof/Machine/Rounds.lean ====
section
/-! DEFINITION. The round engine, and the commands ENCR, DECR, ENCLR, DECLR (41_rounds.md). None of
them reads the round-key schedule: the round key is `OPB`. -/

namespace Sys2Proof.Machine

/-- `encryptRound(b, rk)` (R67). -/
def encryptRound (b rk : Block) : Block := diffuse (substitute sbox b) ^^^ rk

/-- `decryptRound(b, rk)` (R67). -/
def decryptRound (b rk : Block) : Block := substitute sinv (inverseDiffuse (b ^^^ rk))

/-- `encryptLastRound(b, rk)`: no diffusion (R67). -/
def encryptLastRound (b rk : Block) : Block := substitute sbox b ^^^ rk

/-- `decryptLastRound(b, rk)` (R67). -/
def decryptLastRound (b rk : Block) : Block := substitute sinv (b ^^^ rk)

/-- `ENCR` (R69). -/
def execEncr (s : State) : Host.Outcome State Fault Refusal :=
  runCommand .encr .free (fun e => { e with result := encryptRound e.opa e.opb }) s

/-- `DECR` (R70). -/
def execDecr (s : State) : Host.Outcome State Fault Refusal :=
  runCommand .decr .free (fun e => { e with result := decryptRound e.opa e.opb }) s

/-- `ENCLR` (R71). -/
def execEnclr (s : State) : Host.Outcome State Fault Refusal :=
  runCommand .enclr .free (fun e => { e with result := encryptLastRound e.opa e.opb }) s

/-- `DECLR`: accepted without a key schedule (R72; 90_conflicts.md C2). -/
def execDeclr (s : State) : Host.Outcome State Fault Refusal :=
  runCommand .declr .free (fun e => { e with result := decryptLastRound e.opa e.opb }) s

end Sys2Proof.Machine
end

