-- ==== Sys2Proof/Machine/Cipher.lean ====
section
/-! DEFINITION. The cipher engine and its round-key schedule, and the commands KEYLOCK, KEYRAND, ENC,
DEC (42_cipher.md). -/

namespace Sys2Proof.Machine

/-- `encrypt(p)` under the schedule `rk` (R78). -/
def encrypt (rk : Vector Block 4) (p : Block) : Block :=
  let e := p ^^^ rk[0]
  let e := encryptRound e rk[1]
  let e := encryptRound e rk[2]
  encryptLastRound e rk[3]

/-- `decrypt(c)` under the schedule `rk` (R79). -/
def decrypt (rk : Vector Block 4) (c : Block) : Block :=
  let d := decryptLastRound c rk[3]
  let d := decryptRound d rk[2]
  let d := decryptRound d rk[1]
  d ^^^ rk[0]

/-- `RkWrite(r, v)`: the host's write of round key `r` while idle (R74). -/
def rkWrite (r : BitVec 2) (v : Word) (e : Engine) : Engine :=
  if e.keyv then { e with wdl := true }
  else { e with rk := e.rk.set r.toNat (blockField v) r.isLt, rkw := setRkw r e.rkw }

/-- The schedule that KEYRAND's bytes give: byte `3r + p` to position `p` of `RKr` (R77). `none`
only where fewer than 12 bytes have arrived, when KEYRAND does not complete (R55; log entry 12). -/
def keySchedule (q : List Byte) : Option (Vector Block 4) :=
  match q with
  | b0 :: b1 :: b2 :: b3 :: b4 :: b5 :: b6 :: b7 :: b8 :: b9 :: b10 :: b11 :: _ =>
    some #v[drawBlock b0 b1 b2, drawBlock b3 b4 b5, drawBlock b6 b7 b8, drawBlock b9 b10 b11]
  | _ => none

/-- `Exec_KEYRAND` (R77). -/
def keyrandEffect (e : Engine) : Engine :=
  match keySchedule e.rngq with
  | some rk => { e with rk := rk, rkw := 0b1111, keyv := true }
  | none => e

/-- `KEYLOCK` (R76). -/
def execKeylock (s : State) : Host.Outcome State Fault Refusal :=
  runCommand .keylock .lockable (fun e => { e with keyv := true }) s

/-- `KEYRAND` (R77). -/
def execKeyrand (s : State) : Host.Outcome State Fault Refusal :=
  runCommand .keyrand .unset keyrandEffect s

/-- `ENC` (R80). -/
def execEnc (s : State) : Host.Outcome State Fault Refusal :=
  runCommand .enc .required (fun e => { e with result := encrypt e.rk e.opa }) s

/-- `DEC` (R81). -/
def execDec (s : State) : Host.Outcome State Fault Refusal :=
  runCommand .dec .required (fun e => { e with result := decrypt e.rk e.opa }) s

end Sys2Proof.Machine
end

