-- ==== Sys2Proof/Machine/Attack.lean ====
section
/-! DEFINITION. The differential attack datapath, and the commands FILT, PAIRGEN, RECOVER
(44_attack.md). -/

namespace Sys2Proof.Machine

/-- `filter(m, d)`: some position has `(m & d) > 0`, the weak "any position" semantics (R88). -/
def filterDiff (m d : Block) : Bool :=
  (0#4).ult (nib m 0 &&& nib d 0) || (0#4).ult (nib m 1 &&& nib d 1) ||
    (0#4).ult (nib m 2 &&& nib d 2)

/-- The ciphertext pair of one sample: `c0` of the plaintext, `c1` of its partner `p0 ⊕ idf`
(R92). -/
def samplePair (rk : Vector Block 4) (idf p0 : Block) : Pair where
  c0 := encrypt rk p0
  c1 := encrypt rk (p0 ^^^ idf)

/-- `generatePairs(idf, m, n)`: `n` samples, each drawing three bytes whether or not it is kept, and
the kept pairs in generation order (R92). The last case is met only where fewer than `3·n` bytes
have arrived, when the command does not complete (R55; log entry 12). -/
def generatePairs (rk : Vector Block 4) (idf m : Block) : Nat → List Byte → List Pair
  | 0, _ => []
  | n + 1, b0 :: b1 :: b2 :: q =>
    let pr := samplePair rk idf (drawBlock b0 b1 b2)
    if filterDiff m (pr.c0 ^^^ pr.c1) then pr :: generatePairs rk idf m n q
    else generatePairs rk idf m n q
  | _ + 1, _ => []

/-- Whether a pair counts for candidate `k`: the last-round decryptions under the guess differ by
exactly the target difference (R95). -/
def hit (tdf km : Block) (k : Nibble) (pr : Pair) : Bool :=
  decryptLastRound pr.c0 (guess km k) ^^^ decryptLastRound pr.c1 (guess km k) == tdf

/-- How many pairs count for candidate `k` (R95). -/
def countFor (pairs : List Pair) (tdf km : Block) (k : Nibble) : Nat := pairs.countP (hit tdf km k)

/-- `countPairs(pairs, tdf, km)`: the sixteen counters (R95). -/
def countPairs (pairs : List Pair) (tdf km : Block) : Vector Count 16 :=
  tabulate fun k => BitVec.ofNat 16 (countFor pairs tdf km k)

/-- `argmax_first(c)`: the smallest index that holds the maximum (00_scope.md R12). -/
def argmaxFirst (c : Vector Count 16) : Nibble :=
  nibbles.foldl (fun best k => if nget c best < nget c k then k else best) 0

/-- The working copy of the selection with the top count zeroed (R96). -/
def zeroAt (c : Vector Count 16) (t : Nibble) : Vector Count 16 := c.set t.toNat 0 t.isLt

/-- `selectTop2(c)` (R96; 90_conflicts.md C1). -/
def selectTop2 (c : Vector Count 16) : Nibble × Nibble :=
  let t := argmaxFirst c
  (t, argmaxFirst (zeroAt c t))

/-- `Exec_FILT`: `0x001` if the filter passes, `0x000` if not (R90). -/
def filtResult (m d : Block) : Block := if filterDiff m d then 0x001 else 0x000

/-- The pairs a pending PAIRGEN retains. -/
def pairgenPairs (e : Engine) : List Pair :=
  generatePairs e.rk e.idiff e.fmask e.nsamp.toNat e.rngq

/-- `Exec_PAIRGEN` (R93). -/
def pairgenEffect (e : Engine) : Engine :=
  let pairs := pairgenPairs e
  { e with
    pbuf := Memory.ofPairs pairs
    npairs := BitVec.ofNat 16 pairs.length
    povf := decide (Config.pairCap < pairs.length) }

/-- The pairs a pending RECOVER retains, filtered by the derived mask; transient (R94, R97). -/
def recoverPairs (e : Engine) : List Pair :=
  generatePairs e.rk e.idiff (dmask e.tdiff) e.nsamp.toNat e.rngq

/-- `Exec_RECOVER`: `CNT` keeps the unzeroed counts; `PBUF` and `POVF` are not written (R97). -/
def recoverEffect (e : Engine) : Engine :=
  let pairs := recoverPairs e
  let c := countPairs pairs e.tdiff e.kmask
  { e with
    cnt := c
    cand0 := (selectTop2 c).1
    cand1 := (selectTop2 c).2
    npairs := BitVec.ofNat 16 pairs.length }

/-- `FILT` (R90). -/
def execFilt (s : State) : Host.Outcome State Fault Refusal :=
  runCommand .filt .free (fun e => { e with result := filtResult e.fmask e.opa }) s

/-- `PAIRGEN` (R93). -/
def execPairgen (s : State) : Host.Outcome State Fault Refusal :=
  runCommand .pairgen .required pairgenEffect s

/-- `RECOVER` (R97). -/
def execRecover (s : State) : Host.Outcome State Fault Refusal :=
  runCommand .recover .required recoverEffect s

end Sys2Proof.Machine
end

