-- ==== Sys2Proof/Machine/Dispatch.lean ====
section
/-! DEFINITION. One arm per command. -/

namespace Sys2Proof.Machine

def exec (i : Instr) (s : State) : Host.Outcome State Fault Refusal :=
  match i with
  -- 40_layers.md
  | .sub => Sys2Proof.Machine.execSub s
  | .subi => Sys2Proof.Machine.execSubi s
  | .diff => Sys2Proof.Machine.execDiff s
  | .diffi => Sys2Proof.Machine.execDiffi s
  | .mix => Sys2Proof.Machine.execMix s
  -- 41_rounds.md
  | .encr => Sys2Proof.Machine.execEncr s
  | .decr => Sys2Proof.Machine.execDecr s
  | .enclr => Sys2Proof.Machine.execEnclr s
  | .declr => Sys2Proof.Machine.execDeclr s
  -- 42_cipher.md
  | .enc => Sys2Proof.Machine.execEnc s
  | .dec => Sys2Proof.Machine.execDec s
  -- 44_attack.md and the key commands of 42_cipher.md, in the order of the opcode table
  | .filt => Sys2Proof.Machine.execFilt s
  | .keylock => Sys2Proof.Machine.execKeylock s
  | .keyrand => Sys2Proof.Machine.execKeyrand s
  | .pairgen => Sys2Proof.Machine.execPairgen s
  | .recover => Sys2Proof.Machine.execRecover s

end Sys2Proof.Machine
end

