-- ==== Sys2Proof/Machine/Port.lean ====
section
/-! DEFINITION. The host register port (20_memory.md R33 to R36), the issue of a written command word
(30_encoding.md R54), the moves of the three agents and of the reset input, and the host's
pseudo-instructions (30_encoding.md R49). -/

namespace Sys2Proof.Machine

/-! ### Host reads -/

/-- The addresses whose content a completion may change (20_memory.md R36). -/
def volatile : Loc → Bool
  | .result | .npairs | .cand | .cnt _ | .pbuf _ => true
  | .cmd | .status | .opa | .opb | .idiff | .tdiff | .fmask | .kmask | .nsamp => false
  | .rk _ | .sboxt _ | .sinvt _ | .ddt _ _ | .pxt _ _ | .unmapped _ => false

/-- The defined value of a read of each place (20_memory.md R33): write-only and unmapped places
read 0 (R35). -/
def readLoc (l : Loc) (e : Engine) : Word :=
  match l with
  | .cmd => 0
  | .status => statusWord e
  | .opa => zext32 e.opa
  | .opb => zext32 e.opb
  | .idiff => zext32 e.idiff
  | .tdiff => zext32 e.tdiff
  | .fmask => zext32 e.fmask
  | .kmask => zext32 e.kmask
  | .nsamp => zext32 e.nsamp
  | .result => zext32 e.result
  | .npairs => zext32 e.npairs
  | .cand => candWord e.cand0 e.cand1
  | .cnt k => zext32 (nget e.cnt k)
  | .rk _ => 0
  | .sboxt x => zext32 (nget sbox x)
  | .sinvt x => zext32 (nget sinv x)
  | .ddt i o => BitVec.ofNat 32 (ddtEntry sbox i o)
  | .pxt i j => zext32 (pxtEntry sbox i j)
  | .pbuf n => pairWord (e.pbuf.read n.toNat)
  | .unmapped _ => 0

/-- `HostRead(a)`: the word returned and the state after it. A read of a VOLATILE address while busy
returns a fresh draw (R36) and moves the draw counter, the model's own; the engine never changes
(R33). -/
def hostRead (a : Addr) (s : State) : Word × State :=
  if s.eng.busy && volatile (locate a) then
    (Config.draw32 s.draws, { s with draws := s.draws + 1 })
  else (readLoc (locate a) s.eng, s)

/-- The host performs a read and keeps the word. -/
def doRead (a : Addr) (s : State) : State :=
  { (hostRead a s).2 with rdata := (hostRead a s).1 }

/-! ### Host writes -/

/-- `Issue(w)` for a word written to `CMD` while idle (30_encoding.md R54). An illegal word is
FAULTED if the fault is set, else ILLEGAL (R53, 60_exceptions.md R106); a legal one is its
command's own issue. -/
def issueWord (w : Word) (s : State) : Host.Outcome State Fault Refusal :=
  match decodeWord w with
  | some i => exec i s
  | none => if s.eng.fault then raise .faulted s else raise .illegal s

/-- The engine after a host write of `v` to a place other than `CMD` while idle (20_memory.md R34):
a field of the register is stored (10_state.md R29); read-only, table and unmapped places ignore
the write (R35). -/
def writeLoc (l : Loc) (v : Word) (e : Engine) : Engine :=
  match l with
  | .cmd => e
  | .status => statusWrite v e
  | .opa => { e with opa := blockField v }
  | .opb => { e with opb := blockField v }
  | .idiff => { e with idiff := blockField v }
  | .tdiff => { e with tdiff := blockField v }
  | .fmask => { e with fmask := blockField v }
  | .kmask => { e with kmask := blockField v }
  | .nsamp => { e with nsamp := countField v }
  | .rk r => rkWrite r v e
  | .result | .npairs | .cand | .cnt _ => e
  | .sboxt _ | .sinvt _ | .ddt _ _ | .pxt _ _ => e
  | .pbuf _ => e
  | .unmapped _ => e

/-- `HostWrite(a, v)` (R34): dropped with WDB while busy, whatever `a` is. -/
def hostWrite (a : Addr) (v : Word) (s : State) : Host.Outcome State Fault Refusal :=
  if s.eng.busy then .next { s with eng := { s.eng with wdb := true } }
  else if locate a = .cmd then issueWord v s
  else .next { s with eng := writeLoc (locate a) v s.eng }

/-! ### The moves -/

/-- The host performs the next transaction of its program. `WAIT` reads `STATUS` once and stays at
the head of the program until the value read has bit 0 clear (30_encoding.md R49; log entry 8).
With no transaction left the host does nothing. -/
def hostTurn (s : State) : Host.Outcome State Fault Refusal :=
  match s.prog with
  | [] => .next s
  | .read a :: p => .next (doRead a { s with prog := p })
  | .write a v :: p => hostWrite a v { s with prog := p }
  | .wait :: p =>
    if (hostRead Loc.status.addr s).1.getLsbD 0 then .next (doRead Loc.status.addr s)
    else .next (doRead Loc.status.addr { s with prog := p })

/-- The RNG delivers the next byte of its stream, if the pending command wants one and the RNG has
one to offer; otherwise it has no step (60_exceptions.md R113, 70_reset_and_hazards.md R122). -/
def rngTurn (s : State) : Host.Outcome State Fault Refusal :=
  match s.rng with
  | [] => .next s
  | b :: q =>
    if s.eng.wantsByte then .next { s with rng := q, eng := { s.eng with rngq := s.eng.rngq ++ [b] } }
    else .next s

/-- The engine completes its pending command, if it is ready; otherwise it has no step
(30_encoding.md R55). -/
def engineTurn (s : State) : Host.Outcome State Fault Refusal :=
  match s.eng.pend with
  | some i => exec i s
  | none => .next s

/-- The reset input: the engine becomes R118, whatever it was doing (70_reset_and_hazards.md R119).
The host, the RNG and the draw counter are outside the engine and keep going (log entry 15). -/
def resetTurn (s : State) : Host.Outcome State Fault Refusal := .next { s with eng := Engine.reset }

/-- One agent moves. -/
def takeTurn (t : Turn) (s : State) : Host.Outcome State Fault Refusal :=
  match t with
  | .host => hostTurn s
  | .rng => rngTurn s
  | .engine => engineTurn s
  | .reset => resetTurn s

/-- Who moves where the turn list is exhausted: the engine if it is ready, else the RNG if a byte is
wanted and there is one, else the host (log entry 2). -/
def defaultTurn (s : State) : Turn :=
  if s.eng.ready then .engine
  else if s.eng.wantsByte && !s.rng.isEmpty then .rng
  else .host

/-- Who moves next: the head of the turn list, or the default. -/
def nextTurn (s : State) : Turn :=
  match s.turns with
  | t :: _ => t
  | [] => defaultTurn s

/-- The next agent move of a state; it takes the head off the turn list. -/
def runTurn (s : State) : Host.Outcome State Fault Refusal :=
  takeTurn (nextTurn s) { s with turns := s.turns.tail }

/-! ### Pseudo-instructions of a host program (30_encoding.md R49) -/

/-- `CMD <mn>`. -/
def asmCmd (i : Instr) : List HostOp := [.write Loc.cmd.addr (encode i)]

/-- `RUN <mn>`: the command, then `WAIT`. -/
def asmRun (i : Instr) : List HostOp := asmCmd i ++ [.wait]

/-- `CLRW`: clear WDB and WDL. -/
def asmClrw : List HostOp := [.write Loc.status.addr 0x180]

/-- `SETKEY a, b, c, d`. -/
def asmSetKey (a b c d : Word) : List HostOp :=
  [.write (Loc.addr (.rk 0)) a, .write (Loc.addr (.rk 1)) b, .write (Loc.addr (.rk 2)) c,
    .write (Loc.addr (.rk 3)) d] ++ asmRun .keylock

/-- The host's program and turn with a write of `w` to `CMD` put in front, and an idle engine to
take it: what the placing of one command word from outside needs (log entry 5). -/
def placeCommand (w : Word) (s : State) : State :=
  { s with
    eng := s.eng.finish
    prog := .write Loc.cmd.addr w :: s.prog
    turns := .host :: s.turns }

end Sys2Proof.Machine
end

