-- ==== Sys2Proof/Machine/Step.lean ====
section
/-! DEFINITION. One step of the machine: one move of one agent (10_state.md R13, 20_memory.md R42). -/

namespace Sys2Proof.Machine

/-- One step: the next agent makes its move. -/
def step (s : State) : Host.Outcome State Fault Refusal := runTurn s

/-- `s` with the command word `w` as the next transaction of the host, written to `CMD`, so that the
next step issues it. -/
def State.withFetchWord (s : State) (nbits w : Nat) : State := placeCommand (tableWord nbits w) s

end Sys2Proof.Machine
end

