-- ==== Sys2Proof/Safety.lean ====
section
/-! DEFINITION. What a good state of the machine is, in the terms the claims use: the relations
between fields that reset establishes and every step keeps, and the end of a run. -/

namespace Sys2Proof.Machine

/-- The commands whose results come from the round-key schedule (42_cipher.md R75). -/
def usesSchedule : Instr → Bool
  | .enc | .dec | .pairgen | .recover => true
  | .sub | .subi | .diff | .diffi | .mix | .encr | .decr | .enclr | .declr => false
  | .filt | .keylock | .keyrand => false

/-- The commands that set the schedule (42_cipher.md R73). -/
def setsSchedule : Instr → Bool
  | .keylock | .keyrand => true
  | .sub | .subi | .diff | .diffi | .mix | .encr | .decr | .enclr | .declr => false
  | .enc | .dec | .filt | .pairgen | .recover => false

/-- The invariant of the engine. Each field is a consequence of the rules it names, and none is
assumed of a run. -/
structure Engine.Inv (e : Engine) : Prop where
  /-- Delivered bytes exist only while a command is pending (10_state.md R30). -/
  idle_queue : e.pend = none → e.rngq = []
  /-- The RNG delivers no more bytes than the pending command needs (60_exceptions.md R113). -/
  queue_le : ∀ i, e.pend = some i → e.rngq.length ≤ need i e
  /-- Only accepted commands are pending: ERR is OK and FAULT is clear (30_encoding.md R54). -/
  pending_ok : ∀ i, e.pend = some i → e.err = .ok ∧ e.fault = false
  /-- A pending command that uses the schedule has one (R54, 42_cipher.md R75). -/
  pending_keyed : ∀ i, e.pend = some i → usesSchedule i = true → e.keyv = true
  /-- A pending command that sets the schedule finds none set (R54). -/
  pending_unkeyed : ∀ i, e.pend = some i → setsSchedule i = true → e.keyv = false
  /-- A pending KEYLOCK found every round key written (R54, 42_cipher.md R76). -/
  pending_lock : e.pend = some .keylock → e.rkw = 0b1111
  /-- A set schedule has no unwritten block (42_cipher.md R76, R77). -/
  keyed_written : e.keyv = true → e.rkw = 0b1111
  /-- The fatal fault is set only where no schedule is, and none can be set after it
  (60_exceptions.md R102). -/
  fault_unkeyed : e.fault = true → e.keyv = false
  /-- While the fault is set, ERR says so (60_exceptions.md R100, R102). -/
  fault_err : e.fault = true ↔ e.err = .nokey ∨ e.err = .faulted
  /-- The pair buffer keeps its canonical form. -/
  pbuf_wf : e.pbuf.wf = true
  /-- A stored pair is one the filter kept, so its two ciphertexts differ (44_attack.md R93). -/
  pbuf_differ : ∀ n p, (n, p) ∈ e.pbuf → p.c0 ≠ p.c1
  /-- CAND is the selection of CNT (44_attack.md R96, R97). -/
  cand_of_cnt : (e.cand0, e.cand1) = selectTop2 e.cnt

/-- The invariant of the machine: the engine's. -/
def MachineInv (s : State) : Prop := s.eng.Inv

/-- A run has ended: no host transaction is left and no command is pending
(70_reset_and_hazards.md R123). R123 does not name the run whose last accepted command the reset input
abandons (R119); that no command is pending after it counts here as an end too. DESIGN CHOICE, log entry
17. -/
def runEnded (s : State) : Bool := s.prog.isEmpty && !s.eng.busy

/-- A run is free of the fatal fault so far (60_exceptions.md R102). -/
def faultFree (s : State) : Bool := !s.eng.fault

end Sys2Proof.Machine
end

