-- ==== Sys2Proof/Certificates/Slice0/Obligations.lean ====
section
/-! DEFINITION. The statements about the engine, one `def Obligations.<Name> : Prop` each, and the few
predicates they share (namespace `Spec`). Blocks, addresses and fields are spelt here with numbers,
as the rules spell them, so that a statement can disagree with the model. The turn list, the host
program, the RNG's coming bytes, the host's last read word and the draw counter are the model's own
side of the boundary (log entries 2 to 6): where a statement speaks of one of them, that clause is the
model's choice and no rule's. -/

namespace Sys2Proof.Spec

open Sys2Proof.Machine

/-- The engine is idle: no command is pending, BUSY = 0. -/
def Idle (s : State) : Prop := s.eng.pend = none

/-- `exec i` at `s` records the result code `c` and changes nothing else. -/
def RecordsErr (i : Instr) (c : ErrKind) (s : State) : Prop :=
  exec i s = .next { s with eng := { s.eng with err := c } }

/-- `exec i` at `s` records NOKEY, sets the sticky FAULT and changes nothing else. -/
def RecordsFatal (i : Instr) (s : State) : Prop :=
  exec i s = .next { s with eng := { s.eng with err := .nokey, fault := true } }

/-- `exec i` at `s` accepts the command: ERR = OK, the command is pending (BUSY = 1), and nothing
else changes. -/
def Accepts (i : Instr) (s : State) : Prop :=
  exec i s = .next { s with eng := { s.eng with err := .ok, pend := some i } }

/-- `exec i` at `s` completes the command: one next state in which the engine is `e` with BUSY = 0
and no RNG bytes held, and nothing outside the engine has changed. -/
def Completes (i : Instr) (s : State) (e : Engine) : Prop :=
  exec i s = .next { s with eng := { e with pend := none, rngq := [] } }

/-- A command that needs no key and no RNG bytes, with command word `w`, which writes `f` of the
engine's registers to RESULT at its completion: encoding, issue (FAULTED is its only issue error)
and completion. `RESULT` and the end of BUSY are the only changes at completion. -/
def ResultCommand (i : Instr) (w : Word) (f : Engine → Block) : Prop :=
  encode i = w ∧ decodeWord w = some i ∧
  (∀ s, Idle s → s.eng.fault = true → RecordsErr i .faulted s) ∧
  (∀ s, Idle s → s.eng.fault = false → Accepts i s) ∧
  (∀ s, s.eng.pend = some i → s.eng.rngq = [] →
    Completes i s { s.eng with result := f s.eng })

/-- The issue of a command that uses the key schedule: FAULTED, then NOKEY (fatal), else accepted. -/
def KeyedIssue (i : Instr) (w : Word) : Prop :=
  encode i = w ∧ decodeWord w = some i ∧
  (∀ s, Idle s → s.eng.fault = true → RecordsErr i .faulted s) ∧
  (∀ s, Idle s → s.eng.fault = false → s.eng.keyv = false → RecordsFatal i s) ∧
  (∀ s, Idle s → s.eng.fault = false → s.eng.keyv = true → Accepts i s)

/-- Position 0, 1 or 2 of a block, as numbers. -/
def pos (b : Block) (p : Nat) : Nat := b.toNat / 16 ^ (2 - p) % 16

/-- `n0·256 + n1·16 + n2` as a block. -/
def packNat (n0 n1 n2 : Nat) : Block := BitVec.ofNat 12 (n0 * 256 + n1 * 16 + n2)

/-- The table of 10_state.md R15. -/
def sboxTable : List Nat := [6, 7, 11, 12, 9, 8, 4, 0, 14, 5, 3, 13, 1, 2, 15, 10]

/-- The table of 10_state.md R16. -/
def sinvTable : List Nat := [7, 12, 13, 10, 6, 9, 0, 1, 5, 4, 15, 2, 3, 11, 8, 14]

/-- The codes of 60_exceptions.md R100. -/
def errNumber : ErrKind → Nat
  | .ok => 0
  | .illegal => 1
  | .nokey => 2
  | .keyset => 3
  | .keypart => 4
  | .faulted => 5

/-- `STATUS` as the sum 20_memory.md R33 gives. -/
def statusNumber (e : Engine) : Nat :=
  errNumber e.err * 2 ^ 12 + e.povf.toNat * 2 ^ 9 + e.wdl.toNat * 2 ^ 8 + e.wdb.toNat * 2 ^ 7 +
    e.fault.toNat * 2 ^ 6 + e.rkw.toNat * 2 ^ 2 + e.keyv.toNat * 2 + e.busy.toNat

/-- `Issue(w)` as 30_encoding.md R54 writes it: the engine after the checks, in order. -/
def issued (w : Word) (e : Engine) : Engine :=
  if e.fault = true then { e with err := .faulted }
  else if w.toNat / 32 ≠ 0 ∨ w.toNat % 32 < 0x01 ∨ 0x10 < w.toNat % 32 then { e with err := .illegal }
  else if w.toNat ∈ [0x0A, 0x0B, 0x0F, 0x10] ∧ e.keyv = false then
    { e with err := .nokey, fault := true }
  else if w.toNat ∈ [0x0D, 0x0E] ∧ e.keyv = true then { e with err := .keyset }
  else if w.toNat = 0x0D ∧ e.rkw ≠ 0b1111 then { e with err := .keypart }
  else { e with err := .ok, pend := decodeWord w }

/-- The VOLATILE addresses of 20_memory.md R36: RESULT, NPAIRS, CAND, CNT0..CNT15, PBUF. -/
def VolatileAddr (a : Addr) : Prop :=
  (0x009 ≤ a.toNat ∧ a.toNat ≤ 0x00B) ∨ (0x010 ≤ a.toNat ∧ a.toNat ≤ 0x01F) ∨ 0x800 ≤ a.toNat

/-- The unmapped ranges of 20_memory.md R32. -/
def UnmappedAddr (a : Addr) : Prop :=
  (0x00C ≤ a.toNat ∧ a.toNat ≤ 0x00F) ∨ (0x024 ≤ a.toNat ∧ a.toNat ≤ 0x02F) ∨
    (0x050 ≤ a.toNat ∧ a.toNat ≤ 0x0FF) ∨ (0x300 ≤ a.toNat ∧ a.toNat ≤ 0x7FF)

/-- The read-only addresses of 20_memory.md R32: results, counters, the four tables, the buffer. -/
def ReadOnlyAddr (a : Addr) : Prop :=
  VolatileAddr a ∨ (0x030 ≤ a.toNat ∧ a.toNat ≤ 0x04F) ∨ (0x100 ≤ a.toNat ∧ a.toNat ≤ 0x2FF)

/-- The next step is the host's write of `v` to `a`, and the engine is idle to take it. -/
def NextWriteTaken (a : Addr) (v : Word) (s : State) : Prop :=
  nextTurn s = .host ∧ (∃ p, s.prog = .write a v :: p) ∧ Idle s

/-- A table's rows as numbers hold what the tables of 43_tables.md R84 and R86 hold. -/
def cell (m : List (List Nat)) (i o : Nibble) : Nat := (m.getD i.toNat []).getD o.toNat 0

/-- The DDT of 43_tables.md R84, rows 0 to 7. -/
def ddtLow : List (List Nat) :=
  [[16, 0, 0, 0, 0, 0, 0, 0, 0, 0, 0, 0, 0, 0, 0, 0],
   [0, 4, 0, 2, 2, 2, 0, 2, 0, 0, 0, 2, 0, 0, 2, 0],
   [0, 0, 0, 0, 0, 0, 0, 0, 6, 0, 0, 2, 0, 6, 2, 0],
   [0, 0, 0, 2, 0, 0, 2, 0, 0, 2, 2, 2, 4, 2, 0, 0],
   [0, 0, 0, 0, 0, 0, 0, 4, 0, 0, 0, 0, 4, 0, 0, 8],
   [0, 0, 2, 0, 2, 0, 0, 0, 2, 2, 0, 2, 2, 0, 4, 0],
   [0, 2, 6, 0, 2, 0, 0, 2, 0, 0, 0, 0, 0, 0, 0, 4],
   [0, 2, 0, 4, 2, 2, 2, 0, 0, 0, 2, 0, 2, 0, 0, 0]]

/-- The DDT of 43_tables.md R84, rows 8 to 15. -/
def ddtHigh : List (List Nat) :=
  [[0, 2, 2, 0, 0, 0, 0, 0, 6, 0, 4, 2, 0, 0, 0, 0],
   [0, 0, 0, 2, 0, 0, 2, 0, 0, 4, 0, 2, 0, 0, 2, 4],
   [0, 0, 4, 0, 0, 6, 2, 0, 0, 2, 2, 0, 0, 0, 0, 0],
   [0, 2, 2, 2, 2, 0, 2, 2, 0, 0, 0, 2, 0, 0, 2, 0],
   [0, 0, 0, 0, 2, 2, 2, 6, 0, 0, 0, 0, 0, 4, 0, 0],
   [0, 2, 0, 4, 2, 0, 4, 0, 0, 2, 0, 0, 2, 0, 0, 0],
   [0, 0, 0, 0, 0, 4, 0, 0, 0, 2, 6, 0, 0, 2, 2, 0],
   [0, 2, 0, 0, 2, 0, 0, 0, 2, 2, 0, 2, 2, 2, 2, 0]]

/-- The DDT of 43_tables.md R84. -/
def ddtTable : List (List Nat) := ddtLow ++ ddtHigh

/-- The PXT of 43_tables.md R86, rows 0 to 7. -/
def pxtLow : List (List Nat) :=
  [[0x0, 0x1, 0xD, 0xA, 0xF, 0xE, 0x2, 0x6, 0x8, 0x3, 0x5, 0xB, 0x7, 0x4, 0x9, 0xC],
   [0x1, 0x0, 0xC, 0xB, 0xE, 0xF, 0x3, 0x7, 0x9, 0x2, 0x4, 0xA, 0x6, 0x5, 0x8, 0xD],
   [0xD, 0xC, 0x0, 0x7, 0x2, 0x3, 0xF, 0xB, 0x5, 0xE, 0x8, 0x6, 0xA, 0x9, 0x4, 0x1],
   [0xA, 0xB, 0x7, 0x0, 0x5, 0x4, 0x8, 0xC, 0x2, 0x9, 0xF, 0x1, 0xD, 0xE, 0x3, 0x6],
   [0xF, 0xE, 0x2, 0x5, 0x0, 0x1, 0xD, 0x9, 0x7, 0xC, 0xA, 0x4, 0x8, 0xB, 0x6, 0x3],
   [0xE, 0xF, 0x3, 0x4, 0x1, 0x0, 0xC, 0x8, 0x6, 0xD, 0xB, 0x5, 0x9, 0xA, 0x7, 0x2],
   [0x2, 0x3, 0xF, 0x8, 0xD, 0xC, 0x0, 0x4, 0xA, 0x1, 0x7, 0x9, 0x5, 0x6, 0xB, 0xE],
   [0x6, 0x7, 0xB, 0xC, 0x9, 0x8, 0x4, 0x0, 0xE, 0x5, 0x3, 0xD, 0x1, 0x2, 0xF, 0xA]]

/-- The PXT of 43_tables.md R86, rows 8 to 15. -/
def pxtHigh : List (List Nat) :=
  [[0x8, 0x9, 0x5, 0x2, 0x7, 0x6, 0xA, 0xE, 0x0, 0xB, 0xD, 0x3, 0xF, 0xC, 0x1, 0x4],
   [0x3, 0x2, 0xE, 0x9, 0xC, 0xD, 0x1, 0x5, 0xB, 0x0, 0x6, 0x8, 0x4, 0x7, 0xA, 0xF],
   [0x5, 0x4, 0x8, 0xF, 0xA, 0xB, 0x7, 0x3, 0xD, 0x6, 0x0, 0xE, 0x2, 0x1, 0xC, 0x9],
   [0xB, 0xA, 0x6, 0x1, 0x4, 0x5, 0x9, 0xD, 0x3, 0x8, 0xE, 0x0, 0xC, 0xF, 0x2, 0x7],
   [0x7, 0x6, 0xA, 0xD, 0x8, 0x9, 0x5, 0x1, 0xF, 0x4, 0x2, 0xC, 0x0, 0x3, 0xE, 0xB],
   [0x4, 0x5, 0x9, 0xE, 0xB, 0xA, 0x6, 0x2, 0xC, 0x7, 0x1, 0xF, 0x3, 0x0, 0xD, 0x8],
   [0x9, 0x8, 0x4, 0x3, 0x6, 0x7, 0xB, 0xF, 0x1, 0xA, 0xC, 0x2, 0xE, 0xD, 0x0, 0x5],
   [0xC, 0xD, 0x1, 0x6, 0x3, 0x2, 0xE, 0xA, 0x4, 0xF, 0x9, 0x7, 0xB, 0x8, 0x5, 0x0]]

/-- The PXT of 43_tables.md R86. -/
def pxtTable : List (List Nat) := pxtLow ++ pxtHigh

/-- Sample `n` of a byte sequence: the block of bytes `3n`, `3n+1`, `3n+2`, low four bits each, as
44_attack.md R91 draws it. -/
def plaintext (q : List Byte) (n : Nat) : Block :=
  packNat ((q.getD (3 * n) 0).toNat % 16) ((q.getD (3 * n + 1) 0).toNat % 16)
    ((q.getD (3 * n + 2) 0).toNat % 16)

/-- The ciphertext pair of one plaintext, as 44_attack.md R92 computes it. -/
def cipherPair (rk : Vector Block 4) (idf p0 : Block) : Pair :=
  ⟨encrypt rk p0, encrypt rk (p0 ^^^ idf)⟩

/-- A list of pairs kept by the strict filter of 44_attack.md R99: every position where the target
difference is nonzero shows a difference. -/
def strictFilter (tdf : Block) (pr : Pair) : Bool :=
  (List.range 3).all fun p => pos tdf p == 0 || pos (pr.c0 ^^^ pr.c1) p != 0

/-- `t` is the smallest index that holds the maximum of the counters (00_scope.md R12). -/
def FirstMax (c : Vector Count 16) (t : Nibble) : Prop :=
  (∀ k, (nget c k).toNat ≤ (nget c t).toNat) ∧
    ∀ k, k.toNat < t.toNat → (nget c k).toNat < (nget c t).toNat

end Sys2Proof.Spec

open Sys2Proof Sys2Proof.Machine Sys2Proof.Spec

/-! ### Encoding -/

/-- The command words of four commands, written out bit by bit from 30_encoding.md R50 and R52,
decode to those commands. -/
def Obligations.WordsDecodeToTheirCommands : Prop :=
  decodeWord 0b00000000000000000000000000000001#32 = some .sub ∧
  decodeWord 0b00000000000000000000000000001001#32 = some .declr ∧
  decodeWord 0b00000000000000000000000000001101#32 = some .keylock ∧
  decodeWord 0b00000000000000000000000000010000#32 = some .recover

/-- Each command has exactly one command word: decoding a word gives a command just where the word
is that command's encoding. -/
def Obligations.DecodeIsInverseOfEncode : Prop :=
  ∀ (w : Word) (i : Instr), decodeWord w = some i ↔ w = encode i

/-- 30_encoding.md R53: the illegal words are exactly those with opcode 0, opcode `0x11..0x1F` or a
reserved bit set; issuing one records ILLEGAL and changes nothing else. -/
def Obligations.IllegalWordsRecordIllegal : Prop :=
  (∀ w : Word, decodeWord w = none ↔
    (w.toNat % 32 = 0x00 ∨ (0x11 ≤ w.toNat % 32 ∧ w.toNat % 32 ≤ 0x1F) ∨ w.toNat / 32 ≠ 0)) ∧
  ∀ (w : Word) (s : State), decodeWord w = none → Idle s → s.eng.fault = false →
    hostWrite 0x000 w s = .next { s with eng := { s.eng with err := .illegal } }

/-! ### The step -/

/-- A step is the next agent's move, at the state that has moved past the turn and, where the host
moves, past its transaction: a write of a legal word to CMD while the engine is idle is the command's
`exec`; any write, whatever its address and word and whether the engine is busy or not, is `hostWrite`;
a read is `hostRead`, and the word is kept; a WAIT, the RNG's and the engine's move are their own. (The
turn list, the host program and the kept word are the model's own: log entries 2, 5, 6 and 8.) -/
def Obligations.StepRunsWrittenCommand : Prop :=
  (∀ (s : State) (p : List HostOp), nextTurn s = .host →
    (∀ (w : Word) (i : Instr), s.prog = .write 0x000 w :: p → Idle s → decodeWord w = some i →
      step s = exec i { s with turns := s.turns.tail, prog := p }) ∧
    (∀ (a : Addr) (v : Word), s.prog = .write a v :: p →
      step s = hostWrite a v { s with turns := s.turns.tail, prog := p }) ∧
    (∀ a : Addr, s.prog = .read a :: p →
      step s = .next { (hostRead a { s with turns := s.turns.tail, prog := p }).2 with
        rdata := (hostRead a { s with turns := s.turns.tail, prog := p }).1 }) ∧
    (s.prog = .wait :: p → step s = hostTurn { s with turns := s.turns.tail }) ∧
    (s.prog = [] → step s = .next { s with turns := s.turns.tail })) ∧
  (∀ s : State, nextTurn s = .rng → step s = rngTurn { s with turns := s.turns.tail }) ∧
  (∀ s : State, nextTurn s = .engine → step s = engineTurn { s with turns := s.turns.tail })

/-- A step in which the engine moves is the pending command's `exec`, at the state that has moved
past the turn (the model's own: log entry 2). -/
def Obligations.StepRunsPendingCommand : Prop :=
  ∀ (s : State) (i : Instr), nextTurn s = .engine → s.eng.pend = some i →
    step s = exec i { s with turns := s.turns.tail }

/-- No step stops: the hardware has no trap and no halt, and the model refuses nothing. (That a turn
of an agent with nothing to do passes, a stalled RNG's among them, is the model's choice: log entries 2
and 14.) -/
def Obligations.EveryStepAnswersNext : Prop := ∀ s : State, ∃ t, step s = .next t

/-! ### Reset -/

/-- 70_reset_and_hazards.md R118: every piece of the engine's state after reset. -/
def Obligations.ResetValuesOfTheEngine : Prop :=
  let e := State.reset.eng
  e.busy = false ∧ e.pend = none ∧ e.keyv = false ∧ e.rkw = 0b0000 ∧ e.fault = false ∧
  e.wdb = false ∧ e.wdl = false ∧ e.povf = false ∧ errNumber e.err = 0 ∧
  e.opa = 0 ∧ e.opb = 0 ∧ e.idiff = 0 ∧ e.tdiff = 0 ∧ e.fmask = 0 ∧ e.kmask = 0 ∧
  e.nsamp = 0 ∧ e.result = 0 ∧ e.npairs = 0 ∧ e.cand0 = 0 ∧ e.cand1 = 0 ∧
  (∀ k, nget e.cnt k = 0) ∧ (∀ r : Fin 4, e.rk[r] = 0) ∧
  (∀ n, e.pbuf.read n = ⟨0x000, 0x000⟩) ∧ e.rngq = []

/-- 70_reset_and_hazards.md R119: the reset input gives the engine its reset state whatever it was
doing, with none of the pending command's results and none of its bytes, and no other step clears
FAULT or KEYV. (That the turn list, the host and the RNG's coming bytes go on is log entry 15.) -/
def Obligations.ResetAbandonsEverythingAndAloneClears : Prop :=
  (∀ s : State, nextTurn s = .reset →
    step s = .next { s with turns := s.turns.tail, eng := State.reset.eng }) ∧
  ∀ s t : State, step s = .next t → nextTurn s ≠ .reset →
    (s.eng.fault = true → t.eng.fault = true) ∧ (s.eng.keyv = true → t.eng.keyv = true)

/-! ### The host port -/

/-- 20_memory.md R33: what a host read returns, address by address, and that it changes nothing of
the engine. (`Config.draw32` is a free value: nothing constrains it.) -/
def Obligations.HostReadReturnsTheMappedWord : Prop :=
  ∀ (s : State) (a : Addr),
    (hostRead a s).2.eng = s.eng ∧
    (s.eng.busy = true → VolatileAddr a → (hostRead a s).1 = Config.draw32 s.draws) ∧
    (¬(s.eng.busy = true ∧ VolatileAddr a) →
      (a.toNat = 0x000 ∨ (0x020 ≤ a.toNat ∧ a.toNat ≤ 0x023) ∨ UnmappedAddr a →
        (hostRead a s).1.toNat = 0) ∧
      (a.toNat = 0x001 → (hostRead a s).1.toNat = statusNumber s.eng) ∧
      (a.toNat = 0x002 → (hostRead a s).1.toNat = s.eng.opa.toNat) ∧
      (a.toNat = 0x003 → (hostRead a s).1.toNat = s.eng.opb.toNat) ∧
      (a.toNat = 0x004 → (hostRead a s).1.toNat = s.eng.idiff.toNat) ∧
      (a.toNat = 0x005 → (hostRead a s).1.toNat = s.eng.tdiff.toNat) ∧
      (a.toNat = 0x006 → (hostRead a s).1.toNat = s.eng.fmask.toNat) ∧
      (a.toNat = 0x007 → (hostRead a s).1.toNat = s.eng.kmask.toNat) ∧
      (a.toNat = 0x008 → (hostRead a s).1.toNat = s.eng.nsamp.toNat) ∧
      (a.toNat = 0x009 → (hostRead a s).1.toNat = s.eng.result.toNat) ∧
      (a.toNat = 0x00A → (hostRead a s).1.toNat = s.eng.npairs.toNat) ∧
      (a.toNat = 0x00B → (hostRead a s).1.toNat = s.eng.cand1.toNat * 16 + s.eng.cand0.toNat) ∧
      (∀ k : Nibble, a.toNat = 0x010 + k.toNat →
        (hostRead a s).1.toNat = (nget s.eng.cnt k).toNat) ∧
      (∀ x : Nibble, a.toNat = 0x030 + x.toNat → (hostRead a s).1.toNat = (nget sbox x).toNat) ∧
      (∀ x : Nibble, a.toNat = 0x040 + x.toNat → (hostRead a s).1.toNat = (nget sinv x).toNat) ∧
      (∀ i o : Nibble, a.toNat = 0x100 + 16 * i.toNat + o.toNat →
        (hostRead a s).1.toNat = ddtEntry sbox i o) ∧
      (∀ i j : Nibble, a.toNat = 0x200 + 16 * i.toNat + j.toNat →
        (hostRead a s).1.toNat = (pxtEntry sbox i j).toNat) ∧
      (∀ n, n < 2048 → a.toNat = 0x800 + n →
        (hostRead a s).1.toNat = (s.eng.pbuf.read n).c1.toNat * 2 ^ 16 + (s.eng.pbuf.read n).c0.toNat))

/-- 20_memory.md R36: while busy a read of a VOLATILE address returns a draw, the next such read
takes the next draw, and every other address reads as it would if the engine were idle. (The counter
that numbers the draws is the model's own: log entry 4.) -/
def Obligations.BusyReadsOfResultsAreDraws : Prop :=
  ∀ (s : State) (a : Addr), s.eng.busy = true →
    (VolatileAddr a → hostRead a s = (Config.draw32 s.draws, { s with draws := s.draws + 1 })) ∧
    (¬VolatileAddr a → hostRead a s = (readLoc (locate a) s.eng, s))

/-- 20_memory.md R34 and 10_state.md R28: what a host write does, address by address. While busy it
is dropped and only WDB is set; a write to STATUS clears WDB and WDL by its bits 7 and 8 and touches
nothing else. -/
def Obligations.HostWriteStoresByAddress : Prop :=
  ∀ (s : State) (a : Addr) (v : Word),
    (s.eng.busy = true → hostWrite a v s = .next { s with eng := { s.eng with wdb := true } }) ∧
    (s.eng.busy = false →
      (a.toNat = 0x000 → hostWrite a v s = issueWord v s) ∧
      (a.toNat = 0x001 → hostWrite a v s = .next { s with eng := { s.eng with
        wdb := if v.toNat / 2 ^ 7 % 2 = 1 then false else s.eng.wdb
        wdl := if v.toNat / 2 ^ 8 % 2 = 1 then false else s.eng.wdl } }) ∧
      (a.toNat = 0x002 → hostWrite a v s =
        .next { s with eng := { s.eng with opa := BitVec.ofNat 12 v.toNat } }) ∧
      (a.toNat = 0x003 → hostWrite a v s =
        .next { s with eng := { s.eng with opb := BitVec.ofNat 12 v.toNat } }) ∧
      (a.toNat = 0x004 → hostWrite a v s =
        .next { s with eng := { s.eng with idiff := BitVec.ofNat 12 v.toNat } }) ∧
      (a.toNat = 0x005 → hostWrite a v s =
        .next { s with eng := { s.eng with tdiff := BitVec.ofNat 12 v.toNat } }) ∧
      (a.toNat = 0x006 → hostWrite a v s =
        .next { s with eng := { s.eng with fmask := BitVec.ofNat 12 v.toNat } }) ∧
      (a.toNat = 0x007 → hostWrite a v s =
        .next { s with eng := { s.eng with kmask := BitVec.ofNat 12 v.toNat } }) ∧
      (a.toNat = 0x008 → hostWrite a v s =
        .next { s with eng := { s.eng with nsamp := BitVec.ofNat 16 v.toNat } }) ∧
      (∀ r : BitVec 2, a.toNat = 0x020 + r.toNat →
        hostWrite a v s = .next { s with eng := rkWrite r v s.eng }) ∧
      (ReadOnlyAddr a ∨ UnmappedAddr a → hostWrite a v s = .next s))

/-- 10_state.md R29: a write stores only the register's field, and the read back is that field
zero-extended. -/
def Obligations.WriteThenReadGivesTheField : Prop :=
  ∀ (s : State) (a : Addr) (v : Word), Idle s →
    (0x002 ≤ a.toNat → a.toNat ≤ 0x007 →
      ∃ t, hostWrite a v s = .next t ∧ (hostRead a t).1.toNat = v.toNat % 2 ^ 12) ∧
    (a.toNat = 0x008 →
      ∃ t, hostWrite a v s = .next t ∧ (hostRead a t).1.toNat = v.toNat % 2 ^ 16)

/-- 42_cipher.md R74: the write of a round key. -/
def Obligations.RoundKeyWriteIsTakenUntilLocked : Prop :=
  ∀ (s : State) (a : Addr) (r : Fin 4) (v : Word), Idle s → a.toNat = 0x020 + r.val →
    (s.eng.keyv = true → hostWrite a v s = .next { s with eng := { s.eng with wdl := true } }) ∧
    (s.eng.keyv = false → ∃ rk rkw,
      hostWrite a v s = .next { s with eng := { s.eng with rk := rk, rkw := rkw } } ∧
      (rk[r] = BitVec.ofNat 12 v.toNat) ∧ (∀ q : Fin 4, q ≠ r → rk[q] = s.eng.rk[q]) ∧
      (rkw.getLsbD r.val = true) ∧
      (∀ q : Fin 4, q ≠ r → rkw.getLsbD q.val = s.eng.rkw.getLsbD q.val))

/-- The round keys cannot be read: two engines that differ only in them answer every host read
alike (reads of VOLATILE addresses while busy, whose value is unspecified, are left out). -/
def Obligations.HostReadsDoNotDependOnRoundKeys : Prop :=
  ∀ (s : State) (rk : Vector Block 4) (a : Addr), (Idle s ∨ ¬VolatileAddr a) →
    (hostRead a { s with eng := { s.eng with rk := rk } }).1 = (hostRead a s).1

/-! ### Issue and errors -/

/-- 30_encoding.md R54: the checks of a CMD write while idle, in order; the first that applies
decides. A rejected word changes ERR (and FAULT for NOKEY); an accepted one ERR, BUSY and the
pending command. A CMD write while busy is dropped before them. -/
def Obligations.IssueChecksInOrder : Prop :=
  ∀ (s : State) (w : Word),
    (Idle s → hostWrite 0x000 w s = .next { s with eng := issued w s.eng }) ∧
    (¬Idle s → hostWrite 0x000 w s = .next { s with eng := { s.eng with wdb := true } })

/-- 60_exceptions.md R101: ERR keeps its value at every step but a CMD write that is not dropped and
the reset input; such a write always sets it, to OK exactly where the command is accepted and else to
the code of the check of 30_encoding.md R54 that decided. -/
def Obligations.ErrChangesOnlyAtCmdWrites : Prop :=
  ∀ s t : State, step s = .next t →
    (nextTurn s ≠ .reset → (∀ w, ¬NextWriteTaken 0x000 w s) → t.eng.err = s.eng.err) ∧
    (∀ w, NextWriteTaken 0x000 w s →
      t.eng.err = (issued w s.eng).err ∧ (t.eng.err = .ok ↔ t.eng.busy = true))

/-- 60_exceptions.md R102: NOKEY sets FAULT; while it is set every command word is rejected with
FAULTED and no other effect, the other host writes and the reads work as without it, and every step
but the reset input keeps it. -/
def Obligations.FaultIsFatalUntilReset : Prop :=
  (∀ (s : State) (i : Instr), i ∈ [.enc, .dec, .pairgen, .recover] → Idle s →
    s.eng.fault = false → s.eng.keyv = false → RecordsFatal i s) ∧
  (∀ (s : State) (w : Word), Idle s → s.eng.fault = true →
    hostWrite 0x000 w s = .next { s with eng := { s.eng with err := .faulted } }) ∧
  (∀ (s : State) (a : Addr) (v : Word), Idle s → a ≠ 0x000 → ∃ e : Engine,
    hostWrite a v { s with eng := { s.eng with fault := false } } =
      .next { s with eng := { e with fault := false } } ∧
    hostWrite a v { s with eng := { s.eng with fault := true } } =
      .next { s with eng := { e with fault := true } }) ∧
  (∀ (s : State) (a : Addr), Idle s → a ≠ 0x001 →
    (hostRead a { s with eng := { s.eng with fault := true } }).1 =
      (hostRead a { s with eng := { s.eng with fault := false } }).1) ∧
  (∀ s t : State, step s = .next t → nextTurn s ≠ .reset → s.eng.fault = true → t.eng.fault = true)

/-- The sticky write flags: once set, WDB and WDL stay set at every step but the reset input and a
taken STATUS write whose bit 7 (WDB) or bit 8 (WDL) is 1. -/
def Obligations.WriteFlagsStayUntilCleared : Prop :=
  ∀ s t : State, step s = .next t → nextTurn s ≠ .reset →
    (s.eng.wdb = true → (∀ v, NextWriteTaken 0x001 v s → v.toNat / 2 ^ 7 % 2 = 0) →
      t.eng.wdb = true) ∧
    (s.eng.wdl = true → (∀ v, NextWriteTaken 0x001 v s → v.toNat / 2 ^ 8 % 2 = 0) →
      t.eng.wdl = true)

/-! ### The engine's step and the RNG's -/

/-- 30_encoding.md R55: the engine's step. It is enabled where a command is pending and the bytes
delivered are as many as column "RNG" of R52 says; it then runs the command as one transition that
also clears BUSY; otherwise nothing happens (the turn passes: log entries 2 and 7).
What a command does while the engine is idle is its issue: ERR, FAULT and the pending command are all it
can change, so no command completes inside its CMD write. -/
def Obligations.CompletionIsTheEnginesOnlyStep : Prop :=
  (∀ (e : Engine) (i : Instr), need i e =
    if i = .keyrand then 12
    else if i = .pairgen ∨ i = .recover then 3 * e.nsamp.toNat else 0) ∧
  (∀ s : State, Idle s → engineTurn s = .next s) ∧
  (∀ (s : State) (i : Instr), s.eng.pend = some i → s.eng.rngq.length ≠ need i s.eng →
    engineTurn s = .next s) ∧
  (∀ (s : State) (i : Instr), s.eng.pend = some i → s.eng.rngq.length = need i s.eng →
    engineTurn s = exec i s ∧ ∃ e : Engine, Completes i s e) ∧
  (∀ (s : State) (i : Instr) (t : State), Idle s → exec i s = .next t →
    (t.eng.pend = none ∨ t.eng.pend = some i) ∧
    t = { s with eng :=
      { s.eng with err := t.eng.err, fault := t.eng.fault, pend := t.eng.pend } })

/-- The RNG's step: the next byte is appended to the delivered ones exactly where a command is
pending that wants more (60_exceptions.md R113); the byte may be any. (The list of
coming bytes is the model's own: log entry 3.) -/
def Obligations.RngDeliversOnlyWantedBytes : Prop :=
  ∀ (s : State) (b : Byte) (q : List Byte), s.rng = b :: q →
    (∀ i, s.eng.pend = some i → s.eng.rngq.length < need i s.eng →
      rngTurn s = .next { s with rng := q, eng := { s.eng with rngq := s.eng.rngq ++ [b] } }) ∧
    (∀ i, s.eng.pend = some i → need i s.eng ≤ s.eng.rngq.length → rngTurn s = .next s) ∧
    (Idle s → rngTurn s = .next s)

/-- 70_reset_and_hazards.md R122: where the RNG has stopped before the pending command has its bytes
and no reset comes, every step leaves the command pending, the bytes missing and the RNG
silent. (A stopped RNG is a used-up list, and a stalled turn passes: log entries 2, 3 and 14.) -/
def Obligations.StalledCommandStaysBusy : Prop :=
  ∀ (s : State) (i : Instr), s.eng.pend = some i → s.eng.rngq.length < need i s.eng →
    s.rng = [] → Turn.reset ∉ s.turns →
    ∃ t, step s = .next t ∧ t.eng.pend = some i ∧ t.eng.rngq.length < need i t.eng ∧
      t.rng = [] ∧ Turn.reset ∉ t.turns

/-- The two orders of a host write, to any address, and a completion (20_memory.md R42,
60_exceptions.md R106): a write before the completion is dropped, the command's results are those it has
without the write, and WDB is set; a write after it is taken with the effect it has on the idle engine,
which for CMD is the issue of its word, and never sets WDB. (The turn list is the model's own: log entry
2.) -/
def Obligations.WriteBeforeCompletionIsDroppedAfterItIsTaken : Prop :=
  ∀ (s : State) (i : Instr) (a : Addr) (v : Word) (p : List HostOp) (ts : List Turn),
    s.eng.pend = some i → s.eng.rngq.length = need i s.eng → s.prog = .write a v :: p →
    ∃ u t u' t',
      step { s with turns := .host :: .engine :: ts } = .next u ∧ step u = .next t ∧
      step { s with turns := .engine :: .host :: ts } = .next u' ∧ step u' = .next t' ∧
      t.prog = p ∧ t'.prog = p ∧
      u'.eng.busy = false ∧ u'.eng.opa = s.eng.opa ∧ u'.eng.wdb = s.eng.wdb ∧
      t.eng = { u'.eng with wdb := true } ∧
      hostWrite a v { u' with turns := ts, prog := p } = .next t' ∧
      (t'.eng.wdb = true → s.eng.wdb = true) ∧
      (a.toNat = 0x000 → t'.eng = issued v u'.eng) ∧
      (a.toNat = 0x002 → t'.eng = { u'.eng with opa := BitVec.ofNat 12 v.toNat }) ∧
      (∀ r : BitVec 2, a.toNat = 0x020 + r.toNat → t'.eng = rkWrite r v u'.eng) ∧
      (ReadOnlyAddr a ∨ UnmappedAddr a → t'.eng = u'.eng)

/-- Operands stay as they were for as long as a command is pending: a step that does not end the
command changes no register but WDB and the delivered bytes. -/
def Obligations.OperandsStableWhileBusy : Prop :=
  ∀ (s t : State) (i : Instr), s.eng.pend = some i → step s = .next t → t.eng.pend = some i →
    t.eng = { s.eng with rngq := t.eng.rngq, wdb := t.eng.wdb }

/-- 30_encoding.md R49: the expansions of the pseudo-instructions, and WAIT, which reads STATUS and
is over just where the value read has bit 0 clear (one read per host step: log entry 8). -/
def Obligations.PseudoInstructionsExpand : Prop :=
  (∀ i, asmCmd i = [.write 0x000 (encode i)]) ∧
  (∀ i, asmRun i = [.write 0x000 (encode i), .wait]) ∧
  asmClrw = [.write 0x001 0x180] ∧
  (∀ a b c d, asmSetKey a b c d = [.write 0x020 a, .write 0x021 b, .write 0x022 c, .write 0x023 d,
    .write 0x000 0x0000000D, .wait]) ∧
  (∀ (s : State) (p : List HostOp), s.prog = .wait :: p →
    hostTurn s = .next { s with
      rdata := (hostRead 0x001 s).1
      prog := if (hostRead 0x001 s).1.toNat % 2 = 0 then p else s.prog })

/-! ### The layer commands -/

/-- 40_layers.md R58 on the tables of 10_state.md R15 and R16: each nibble of the block is replaced
through the table, position by position. -/
def Obligations.SubstituteActsNibbleByNibble : Prop :=
  (∀ b : Block, substitute sbox b =
    packNat (sboxTable.getD (pos b 0) 0) (sboxTable.getD (pos b 1) 0) (sboxTable.getD (pos b 2) 0)) ∧
  (∀ b : Block, substitute sinv b =
    packNat (sinvTable.getD (pos b 0) 0) (sinvTable.getD (pos b 1) 0) (sinvTable.getD (pos b 2) 0))

/-- 10_state.md R16: SINV undoes SBOX in both orders, holds the listed values, and is the only table
that undoes SBOX. -/
def Obligations.SinvIsTheUniqueInverse : Prop :=
  (∀ x : Nibble, nget sinv (nget sbox x) = x) ∧ (∀ x : Nibble, nget sbox (nget sinv x) = x) ∧
  (∀ x : Nibble, (nget sinv x).toNat = sinvTable.getD x.toNat 0) ∧
  (∀ t : Vector Nibble 16, (∀ x : Nibble, nget t (nget sbox x) = x) → t = sinv)

/-- The packed form of the diffusion (40_layers.md R61 (b)): bit `i` of the block moves to bit
`2·i mod 11`, back it moves to `6·i mod 11`, and bit 11 stays. -/
def Obligations.DiffusionMovesPackedBits : Prop :=
  ∀ b : Block,
    (∀ i, i < 11 → (diffuse b).getLsbD (2 * i % 11) = b.getLsbD i) ∧
    (∀ i, i < 11 → (inverseDiffuse b).getLsbD (6 * i % 11) = b.getLsbD i) ∧
    (diffuse b).getLsbD 11 = b.getLsbD 11 ∧ (inverseDiffuse b).getLsbD 11 = b.getLsbD 11

/-- 40_layers.md R60 and R61 (c), (d): the two diffusions undo each other on every block, and the
forward one is linear. -/
def Obligations.DiffusionRoundTripAndLinear : Prop :=
  (∀ b : Block, inverseDiffuse (diffuse b) = b) ∧ (∀ b : Block, diffuse (inverseDiffuse b) = b) ∧
  (∀ a b : Block, diffuse (a ^^^ b) = diffuse a ^^^ diffuse b)

/-- 40_layers.md R62: SUB. -/
def Obligations.SubCommand : Prop :=
  ResultCommand .sub 0x00000001 (fun e => substitute sbox e.opa) ∧
  substitute sbox 0x000 = 0x666 ∧ substitute sbox 0xFFF = 0xAAA ∧ substitute sbox 0x123 = 0x7BC

/-- 40_layers.md R63: SUBI. -/
def Obligations.SubiCommand : Prop :=
  ResultCommand .subi 0x00000002 (fun e => substitute sinv e.opa) ∧
  substitute sinv 0x000 = 0x777 ∧ substitute sinv 0xFFF = 0xEEE ∧ substitute sinv 0x7BC = 0x123 ∧
  (∀ b : Block, substitute sinv (substitute sbox b) = b)

/-- 40_layers.md R64: DIFF. -/
def Obligations.DiffCommand : Prop :=
  ResultCommand .diff 0x00000003 (fun e => diffuse e.opa) ∧
  diffuse 0x000 = 0x000 ∧ diffuse 0xFFF = 0xFFF ∧ diffuse 0x800 = 0x800 ∧ diffuse 0x400 = 0x200 ∧
  diffuse 0x123 = 0x425

/-- 40_layers.md R65: DIFFI. -/
def Obligations.DiffiCommand : Prop :=
  ResultCommand .diffi 0x00000004 (fun e => inverseDiffuse e.opa) ∧
  inverseDiffuse 0x000 = 0x000 ∧ inverseDiffuse 0xFFF = 0xFFF ∧ inverseDiffuse 0x400 = 0x020 ∧
  inverseDiffuse 0x425 = 0x123 ∧ inverseDiffuse 0x123 = 0x151 ∧
  (∀ b : Block, inverseDiffuse (diffuse b) = b)

/-- 40_layers.md R66: MIX. -/
def Obligations.MixCommand : Prop :=
  ResultCommand .mix 0x00000005 (fun e => e.opa ^^^ e.opb) ∧
  (∀ a : Block, a ^^^ a = 0x000) ∧ (∀ a : Block, a ^^^ 0x000 = a) ∧
  (0x123 ^^^ 0xABC : Block) = 0xB9F

/-! ### The round commands -/

/-- 41_rounds.md R69: ENCR. -/
def Obligations.EncrCommand : Prop :=
  ResultCommand .encr 0x00000006 (fun e => diffuse (substitute sbox e.opa) ^^^ e.opb) ∧
  encryptRound 0x000 0x000 = 0x696 ∧ encryptRound 0x123 0x456 = 0x3AE ∧
  (∀ b k : Block, encryptRound b k = encryptRound b 0x000 ^^^ k)

/-- 41_rounds.md R70: DECR. -/
def Obligations.DecrCommand : Prop :=
  ResultCommand .decr 0x00000007 (fun e => substitute sinv (inverseDiffuse (e.opa ^^^ e.opb))) ∧
  decryptRound 0x000 0x000 = 0x777 ∧ decryptRound 0x3AE 0x456 = 0x123 ∧
  decryptRound 0x123 0x456 = 0xCAE ∧ (∀ b k : Block, decryptRound (encryptRound b k) k = b)

/-- 41_rounds.md R71: ENCLR. -/
def Obligations.EnclrCommand : Prop :=
  ResultCommand .enclr 0x00000008 (fun e => substitute sbox e.opa ^^^ e.opb) ∧
  (∀ b : Block, encryptLastRound b 0x000 = substitute sbox b) ∧
  encryptLastRound 0xFFF 0xABC = 0x016 ∧ encryptLastRound 0x123 0x456 = 0x3EA

/-- 41_rounds.md R72: DECLR, accepted with KEYV = 0 and never reading the schedule. -/
def Obligations.DeclrCommand : Prop :=
  ResultCommand .declr 0x00000009 (fun e => substitute sinv (e.opa ^^^ e.opb)) ∧
  (∀ b : Block, decryptLastRound b b = 0x777) ∧ decryptLastRound 0x123 0x456 = 0x919 ∧
  (∀ (rk : Vector Block 4) (p : Block), decryptLastRound (encrypt rk p) rk[3] =
    encryptRound (encryptRound (p ^^^ rk[0]) rk[1]) rk[2])

/-- 41_rounds.md R68: each decryption round undoes its encryption round, for every block and key. -/
def Obligations.RoundsUndoEachOther : Prop :=
  ∀ b rk : Block, decryptRound (encryptRound b rk) rk = b ∧
    decryptLastRound (encryptLastRound b rk) rk = b

/-! ### The cipher and its key -/

/-- 42_cipher.md R76: KEYLOCK. -/
def Obligations.KeylockCommand : Prop :=
  encode .keylock = 0x0000000D ∧ decodeWord 0x0000000D = some .keylock ∧
  (∀ s, Idle s → s.eng.fault = true → RecordsErr .keylock .faulted s) ∧
  (∀ s, Idle s → s.eng.fault = false → s.eng.keyv = true → RecordsErr .keylock .keyset s) ∧
  (∀ s, Idle s → s.eng.fault = false → s.eng.keyv = false → s.eng.rkw ≠ 0b1111 →
    RecordsErr .keylock .keypart s) ∧
  (∀ s, Idle s → s.eng.fault = false → s.eng.keyv = false → s.eng.rkw = 0b1111 →
    Accepts .keylock s) ∧
  (∀ s, s.eng.pend = some .keylock → s.eng.rngq = [] →
    Completes .keylock s { s.eng with keyv := true })

/-- 42_cipher.md R77: KEYRAND; byte `3r + p` gives position `p` of `RKr`, low four bits only; while
fewer than 12 bytes have arrived it stays pending. -/
def Obligations.KeyrandCommand : Prop :=
  encode .keyrand = 0x0000000E ∧ decodeWord 0x0000000E = some .keyrand ∧
  (∀ s, Idle s → s.eng.fault = true → RecordsErr .keyrand .faulted s) ∧
  (∀ s, Idle s → s.eng.fault = false → s.eng.keyv = true → RecordsErr .keyrand .keyset s) ∧
  (∀ s, Idle s → s.eng.fault = false → s.eng.keyv = false → Accepts .keyrand s) ∧
  (∀ s, s.eng.pend = some .keyrand → s.eng.rngq.length = 12 → ∃ rk : Vector Block 4,
    Completes .keyrand s { s.eng with rk := rk, rkw := 0b1111, keyv := true } ∧
    ∀ r : Fin 4, rk[r] = plaintext s.eng.rngq r.val) ∧
  (∀ s, s.eng.pend = some .keyrand → s.eng.rngq.length < 12 → engineTurn s = .next s) ∧
  (let q : List Byte := [0x29, 0x72, 0xBB, 0x04, 0x4D, 0x96, 0xDF, 0x28, 0x71, 0xBA, 0x03, 0x4C];
    plaintext q 0 = 0x92B ∧ plaintext q 1 = 0x4D6 ∧ plaintext q 2 = 0xF81 ∧ plaintext q 3 = 0xA3C)

/-- 42_cipher.md R80: ENC. -/
def Obligations.EncCommand : Prop :=
  KeyedIssue .enc 0x0000000A ∧
  (∀ s, s.eng.pend = some .enc → s.eng.rngq = [] →
    Completes .enc s { s.eng with result := encrypt s.eng.rk s.eng.opa }) ∧
  encrypt #v[0, 0, 0, 0] 0x000 = 0xC7B ∧ encrypt #v[0, 0, 0, 0] 0xFFF = 0x7B7 ∧
  (0x000 ^^^ 0x123 : Block) = 0x123 ∧ encryptRound 0x123 0x456 = 0x3AE ∧
  encryptRound 0x3AE 0x789 = 0x8DC ∧ encrypt #v[0x123, 0x456, 0x789, 0xABC] 0x000 = 0x49D

/-- 42_cipher.md R81: DEC. -/
def Obligations.DecCommand : Prop :=
  KeyedIssue .dec 0x0000000B ∧
  (∀ s, s.eng.pend = some .dec → s.eng.rngq = [] →
    Completes .dec s { s.eng with result := decrypt s.eng.rk s.eng.opa }) ∧
  (∀ (rk : Vector Block 4) (p : Block),
    decrypt rk (encrypt rk p) = p ∧ encrypt rk (decrypt rk p) = p) ∧
  decrypt #v[0x123, 0x456, 0x789, 0xABC] 0x49D = 0x000 ∧
  decrypt #v[0x123, 0x456, 0x789, 0xABC] 0x000 = 0x8F7

/-- 42_cipher.md R78 and R79: the stages of encryption and decryption, and that each undoes the
other under every schedule. -/
def Obligations.DecryptUndoesEncrypt : Prop :=
  ∀ (rk : Vector Block 4) (b : Block),
    encrypt rk b = encryptLastRound (encryptRound (encryptRound (b ^^^ rk[0]) rk[1]) rk[2]) rk[3] ∧
    decrypt rk b = decryptRound (decryptRound (decryptLastRound b rk[3]) rk[2]) rk[1] ^^^ rk[0] ∧
    decrypt rk (encrypt rk b) = b ∧ encrypt rk (decrypt rk b) = b

/-- The key schedule is immutable once set: from every state that meets the invariant, a step other
than the reset input keeps KEYV, RKW and the four round keys. -/
def Obligations.KeyScheduleImmutableOnceSet : Prop :=
  ∀ s t : State, MachineInv s → s.eng.keyv = true → nextTurn s ≠ .reset → step s = .next t →
    t.eng.keyv = true ∧ t.eng.rkw = s.eng.rkw ∧ t.eng.rk = s.eng.rk

/-! ### The tables -/

/-- 43_tables.md R82: the loops that build the DDT leave in every cell the number of ordered pairs
that fall into it, for every table, and no cell exceeds 16. -/
def Obligations.BuildDdtCountsPairs : Prop :=
  ∀ (t : Vector Nibble 16) (i o : Nibble),
    nget (nget (buildDDT t) i) o = ddtEntry t i o ∧ ddtEntry t i o ≤ 16

/-- 43_tables.md R85: the invariants of the DDT of every permutation, and the two entries named of
this build's table. -/
def Obligations.DdtInvariantsOfPermutations : Prop :=
  (∀ t : Vector Nibble 16, (∀ x y : Nibble, nget t x = nget t y → x = y) →
    (∀ i, (nibbles.map fun o => ddtEntry t i o).sum = 16) ∧
    (∀ o, (nibbles.map fun i => ddtEntry t i o).sum = 16) ∧
    ddtEntry t 0 0 = 16 ∧ (∀ d, d ≠ 0 → ddtEntry t 0 d = 0) ∧ (∀ i, i ≠ 0 → ddtEntry t i 0 = 0) ∧
    (∀ i o, ddtEntry t i o % 2 = 0)) ∧
  (∀ i o, i ≠ 0 → ddtEntry sbox i o ≤ 8) ∧ ddtEntry sbox 4 0xF = 8 ∧ ddtEntry sbox 2 8 = 6

/-- 43_tables.md R83, R84, R86, R87: what the four table windows read at every time, busy or not,
and that a write to them changes nothing of them. -/
def Obligations.TableWindowsReadTheTables : Prop :=
  ∀ s : State,
    (∀ (a : Addr) (i o : Nibble), a.toNat = 0x100 + 16 * i.toNat + o.toNat →
      (hostRead a s).1.toNat = cell ddtTable i o) ∧
    (∀ (a : Addr) (i j : Nibble), a.toNat = 0x200 + 16 * i.toNat + j.toNat →
      (hostRead a s).1.toNat = cell pxtTable i j ∧ cell pxtTable i j = (nget sbox i ^^^ nget sbox j).toNat) ∧
    (∀ (a : Addr) (x : Nibble), a.toNat = 0x030 + x.toNat →
      (hostRead a s).1.toNat = sboxTable.getD x.toNat 0) ∧
    (∀ (a : Addr) (x : Nibble), a.toNat = 0x040 + x.toNat →
      (hostRead a s).1.toNat = sinvTable.getD x.toNat 0) ∧
    (∀ (a : Addr) (v : Word), (0x030 ≤ a.toNat ∧ a.toNat ≤ 0x04F) ∨
      (0x100 ≤ a.toNat ∧ a.toNat ≤ 0x2FF) → Idle s → hostWrite a v s = .next s)

/-- 10_state.md R17 and 60_exceptions.md R105: a configuration is built just where its pair is
mutually inverse and is this build's; a pair that is not mutually inverse is refused as a
configuration error. (That another admitted pair is refused too is the model's choice
after 92_eei_decisions.md D6: log entry 10.) -/
def Obligations.BadConfigurationsAreRefused : Prop :=
  (∀ t : SboxPair,
    ¬((∀ x, nget t.sinv (nget t.sbox x) = x) ∧ (∀ x, nget t.sbox (nget t.sinv x) = x)) →
      construct t = .refused .configurationError) ∧
  (∀ t : SboxPair, (∀ x, nget t.sinv (nget t.sbox x) = x) → (∀ x, nget t.sbox (nget t.sinv x) = x) →
    t ≠ ⟨sbox, sinv⟩ → construct t = .refused .otherInstance) ∧
  construct ⟨sbox, sinv⟩ = .next State.reset

/-! ### The attack datapath -/

/-- 44_attack.md R88: the filter passes exactly where some position of mask and difference have a
common bit, that is, where the packed AND is nonzero. -/
def Obligations.FilterIsAnyPosition : Prop :=
  ∀ m d : Block,
    (filterDiff m d = true ↔ ∃ p : Fin 3, (nib m p &&& nib d p).toNat > 0) ∧
    (filterDiff m d = true ↔ m &&& d ≠ 0x000)

/-- 44_attack.md R90: FILT. -/
def Obligations.FiltCommand : Prop :=
  ResultCommand .filt 0x0000000C (fun e => if e.fmask &&& e.opa ≠ 0x000 then 0x001 else 0x000) ∧
  (∀ d, filtResult 0x000 d = 0x000) ∧ (∀ m, filtResult m 0x000 = 0x000) ∧
  (∀ d, filtResult 0xFFF d = 0x001 ↔ d ≠ 0x000) ∧
  filtResult 0xF00 0x300 = 0x001 ∧ filtResult 0xF00 0x035 = 0x000

/-- 44_attack.md R91 and R92: from `3·n` bytes, the pairs of the `n` plaintexts the bytes give, in
order, those whose ciphertext difference meets the mask. -/
def Obligations.GeneratePairsFiltersTheSamples : Prop :=
  ∀ (rk : Vector Block 4) (idf m : Block) (n : Nat) (q : List Byte), q.length = 3 * n →
    generatePairs rk idf m n q =
      ((List.range n).map fun k => cipherPair rk idf (plaintext q k)).filter
        fun pr => (pr.c0 ^^^ pr.c1) &&& m != 0x000

/-- 44_attack.md R93: PAIRGEN. -/
def Obligations.PairgenCommand : Prop :=
  KeyedIssue .pairgen 0x0000000F ∧
  (∀ s, s.eng.pend = some .pairgen → s.eng.rngq.length = 3 * s.eng.nsamp.toNat →
    ∃ (buf : Memory) (n : Count) (ovf : Bool),
      let pairs := generatePairs s.eng.rk s.eng.idiff s.eng.fmask s.eng.nsamp.toNat s.eng.rngq
      Completes .pairgen s { s.eng with pbuf := buf, npairs := n, povf := ovf } ∧
      (∀ e, e < 2048 → buf.read e = pairs.getD e ⟨0x000, 0x000⟩) ∧
      n.toNat = pairs.length ∧ pairs.length ≤ s.eng.nsamp.toNat ∧ (ovf = true ↔ pairs.length > 2048)) ∧
  (∀ rk m n q, generatePairs rk 0x000 m n q = []) ∧
  (∀ rk d n q, generatePairs rk d 0x000 n q = []) ∧
  (let pairs := generatePairs #v[0x123, 0x456, 0x789, 0xABC] 0x200 0xF00 8
      ((List.range 24).map fun i => BitVec.ofNat 8 (73 * i + 41));
    pairs.length = 7 ∧ pairs.head? = some ⟨0x67C, 0xCCE⟩)

/-- 44_attack.md R95: the counters, exact for every list of pairs a run can retain; where the target
difference is zero a position agrees just where the two ciphertexts do, whatever the guess, so the
counters do not depend on the mask there. -/
def Obligations.CountersCountMatchingPairs : Prop :=
  (∀ (ps : List Pair) (tdf km : Block) (k : Nibble), ps.length ≤ 65535 →
    (nget (countPairs ps tdf km) k).toNat =
      (ps.filter fun pr => decryptLastRound pr.c0 (guess km k) ^^^
        decryptLastRound pr.c1 (guess km k) == tdf).length) ∧
  (∀ (km : Block) (k : Nibble), guess km k = packNat (pos km 0 &&& k.toNat) (pos km 1 &&& k.toNat)
    (pos km 2 &&& k.toNat)) ∧
  (∀ (tdf g c0 c1 : Block) (p : Fin 3), nib tdf p = 0 →
    (nib (decryptLastRound c0 g ^^^ decryptLastRound c1 g) p = nib tdf p ↔ nib c0 p = nib c1 p)) ∧
  (∀ (ps : List Pair) (tdf km km' : Block),
    (∀ p : Fin 3, nib tdf p ≠ 0 → nib km p = nib km' p) → countPairs ps tdf km = countPairs ps tdf km')

/-- 44_attack.md R96: the first candidate is the smallest index holding the maximum, the second the
same after the first's count is zeroed, and the two are equal just where index 0 is the first and
every other count is zero. RECOVER selects from the counts it leaves, unzeroed, in CNT. -/
def Obligations.SelectionTakesFirstMaxima : Prop :=
  (∀ c : Vector Count 16, ∃ t u : Nibble, selectTop2 c = (t, u) ∧ FirstMax c t ∧
    (∀ w : Vector Count 16, nget w t = 0 → (∀ k, k ≠ t → nget w k = nget c k) → FirstMax w u) ∧
    (u = t ↔ t = 0 ∧ ∀ k, k ≠ 0 → nget c k = 0)) ∧
  (∀ s, s.eng.pend = some .recover → s.eng.rngq.length = 3 * s.eng.nsamp.toNat →
    ∃ t, exec .recover s = .next t ∧ (t.eng.cand0, t.eng.cand1) = selectTop2 t.eng.cnt ∧
      t.eng.cnt = countPairs (generatePairs s.eng.rk s.eng.idiff (dmask s.eng.tdiff)
        s.eng.nsamp.toNat s.eng.rngq) s.eng.tdiff s.eng.kmask)

/-- 44_attack.md R94 and R97: RECOVER. -/
def Obligations.RecoverCommand : Prop :=
  (∀ (t : Block) (p : Fin 3), nib (dmask t) p = if nib t p = 0 then 0x0 else 0xF) ∧
  KeyedIssue .recover 0x00000010 ∧
  (∀ s, s.eng.pend = some .recover → s.eng.rngq.length = 3 * s.eng.nsamp.toNat →
    ∃ n : Count,
      let pairs := generatePairs s.eng.rk s.eng.idiff (dmask s.eng.tdiff) s.eng.nsamp.toNat s.eng.rngq
      let c := countPairs pairs s.eng.tdiff s.eng.kmask
      Completes .recover s { s.eng with
        cnt := c, cand0 := (selectTop2 c).1, cand1 := (selectTop2 c).2, npairs := n } ∧
      n.toNat = pairs.length)

/-- The degenerate cases of RECOVER (44_attack.md R98 (a), (b)): with no retained pair every counter
and both candidates are 0, which is what no samples, a zero input difference and a zero target
difference give; with an all-zero key mask all counters are equal, and if they are not zero the
candidates are 0 and 1. -/
def Obligations.RecoverDegenerateCases : Prop :=
  (∀ tdf km, countPairs [] tdf km = tabulate (fun _ => 0)) ∧
  selectTop2 (tabulate fun _ => 0) = (0, 0) ∧
  (∀ rk d m q, generatePairs rk d m 0 q = []) ∧
  (∀ rk m n q, generatePairs rk 0x000 m n q = []) ∧
  (∀ rk d n q, generatePairs rk d (dmask 0x000) n q = []) ∧
  (∀ ps tdf (j k : Nibble), nget (countPairs ps tdf 0x000) j = nget (countPairs ps tdf 0x000) k) ∧
  (∀ x : Count, x ≠ 0 → selectTop2 (tabulate fun _ => x) = (0, 1))

/-- 44_attack.md R99: for a nonzero target difference the counters are the same under the weak
filter, the strict filter and no filter. -/
def Obligations.FilterDoesNotChangeTheCounters : Prop :=
  ∀ (ps : List Pair) (tdf km : Block), tdf ≠ 0x000 →
    countPairs (ps.filter fun pr => filterDiff (dmask tdf) (pr.c0 ^^^ pr.c1)) tdf km =
      countPairs ps tdf km ∧
    countPairs (ps.filter (strictFilter tdf)) tdf km = countPairs ps tdf km

/-! ### Whole-machine statements -/

/-- The frame of every command (column "writes" of 30_encoding.md R52), at issue, at completion and
where it waits: registers outside its column, everything outside the engine and, for the commands
that do not write it, every entry of the pair buffer stay as they were. -/
def Obligations.CommandsWriteOnlyTheirColumn : Prop :=
  ∀ (i : Instr) (s t : State), exec i s = .next t →
    (t.prog = s.prog ∧ t.turns = s.turns ∧ t.rng = s.rng ∧ t.rdata = s.rdata ∧ t.draws = s.draws) ∧
    (t.eng.opa = s.eng.opa ∧ t.eng.opb = s.eng.opb ∧ t.eng.idiff = s.eng.idiff ∧
      t.eng.tdiff = s.eng.tdiff ∧ t.eng.fmask = s.eng.fmask ∧ t.eng.kmask = s.eng.kmask ∧
      t.eng.nsamp = s.eng.nsamp) ∧
    (t.eng.wdb = s.eng.wdb ∧ t.eng.wdl = s.eng.wdl) ∧
    (i ∉ [.enc, .dec, .pairgen, .recover] → t.eng.fault = s.eng.fault) ∧
    (i ∈ [.keylock, .keyrand, .pairgen, .recover] → t.eng.result = s.eng.result) ∧
    (i ≠ .keylock → i ≠ .keyrand → t.eng.keyv = s.eng.keyv) ∧
    (i ≠ .keyrand → t.eng.rk = s.eng.rk ∧ t.eng.rkw = s.eng.rkw) ∧
    (i ≠ .pairgen → t.eng.povf = s.eng.povf ∧ ∀ n, t.eng.pbuf.read n = s.eng.pbuf.read n) ∧
    (i ≠ .recover → t.eng.cnt = s.eng.cnt ∧ t.eng.cand0 = s.eng.cand0 ∧
      t.eng.cand1 = s.eng.cand1) ∧
    (i ≠ .pairgen → i ≠ .recover → t.eng.npairs = s.eng.npairs)

/-- The invariant holds right after reset. -/
def Obligations.ResetMeetsTheInvariant : Prop := MachineInv State.reset

/-- Every step keeps the invariant, from every state that meets it, whoever moves. -/
def Obligations.EveryStepKeepsTheInvariant : Prop :=
  ∀ s t : State, MachineInv s → step s = .next t → MachineInv t
end

