-- ==== Sys2Proof/Laws/State.lean ====
section
/-! SUPPORT. One lemma per field for each named update of the engine and of the state, true by
definition, so that no later proof unfolds a record update. -/

namespace Sys2Proof.Machine

/-! ### `Engine.finish` -/

@[simp] theorem Engine.finish_pend (e : Engine) : e.finish.pend = none := rfl
@[simp] theorem Engine.finish_rngq (e : Engine) : e.finish.rngq = [] := rfl
@[simp] theorem Engine.finish_busy (e : Engine) : e.finish.busy = false := rfl
@[simp] theorem Engine.finish_keyv (e : Engine) : e.finish.keyv = e.keyv := rfl
@[simp] theorem Engine.finish_rkw (e : Engine) : e.finish.rkw = e.rkw := rfl
@[simp] theorem Engine.finish_fault (e : Engine) : e.finish.fault = e.fault := rfl
@[simp] theorem Engine.finish_wdb (e : Engine) : e.finish.wdb = e.wdb := rfl
@[simp] theorem Engine.finish_wdl (e : Engine) : e.finish.wdl = e.wdl := rfl
@[simp] theorem Engine.finish_povf (e : Engine) : e.finish.povf = e.povf := rfl
@[simp] theorem Engine.finish_err (e : Engine) : e.finish.err = e.err := rfl
@[simp] theorem Engine.finish_opa (e : Engine) : e.finish.opa = e.opa := rfl
@[simp] theorem Engine.finish_opb (e : Engine) : e.finish.opb = e.opb := rfl
@[simp] theorem Engine.finish_idiff (e : Engine) : e.finish.idiff = e.idiff := rfl
@[simp] theorem Engine.finish_tdiff (e : Engine) : e.finish.tdiff = e.tdiff := rfl
@[simp] theorem Engine.finish_fmask (e : Engine) : e.finish.fmask = e.fmask := rfl
@[simp] theorem Engine.finish_kmask (e : Engine) : e.finish.kmask = e.kmask := rfl
@[simp] theorem Engine.finish_nsamp (e : Engine) : e.finish.nsamp = e.nsamp := rfl
@[simp] theorem Engine.finish_result (e : Engine) : e.finish.result = e.result := rfl
@[simp] theorem Engine.finish_npairs (e : Engine) : e.finish.npairs = e.npairs := rfl
@[simp] theorem Engine.finish_cand0 (e : Engine) : e.finish.cand0 = e.cand0 := rfl
@[simp] theorem Engine.finish_cand1 (e : Engine) : e.finish.cand1 = e.cand1 := rfl
@[simp] theorem Engine.finish_cnt (e : Engine) : e.finish.cnt = e.cnt := rfl
@[simp] theorem Engine.finish_rk (e : Engine) : e.finish.rk = e.rk := rfl
@[simp] theorem Engine.finish_pbuf (e : Engine) : e.finish.pbuf = e.pbuf := rfl

/-! ### `busy` is the view of `pend` -/

theorem Engine.busy_eq_false (e : Engine) : e.busy = false ↔ e.pend = none := by
  cases h : e.pend <;> simp [Engine.busy, h]

theorem Engine.busy_eq_true (e : Engine) : e.busy = true ↔ ∃ i, e.pend = some i := by
  cases h : e.pend <;> simp [Engine.busy, h]

@[simp] theorem Engine.busy_of_none (e : Engine) (h : e.pend = none) : e.busy = false := by
  simp [Engine.busy, h]

@[simp] theorem Engine.busy_of_some (e : Engine) (i : Instr) (h : e.pend = some i) :
    e.busy = true := by
  simp [Engine.busy, h]

/-! ### `statusWrite` -/

@[simp] theorem statusWrite_wdb (v : Word) (e : Engine) :
    (statusWrite v e).wdb = (e.wdb && !v.getLsbD 7) := rfl
@[simp] theorem statusWrite_wdl (v : Word) (e : Engine) :
    (statusWrite v e).wdl = (e.wdl && !v.getLsbD 8) := rfl
@[simp] theorem statusWrite_pend (v : Word) (e : Engine) :
    (statusWrite v e).pend = e.pend := rfl
@[simp] theorem statusWrite_rngq (v : Word) (e : Engine) :
    (statusWrite v e).rngq = e.rngq := rfl
@[simp] theorem statusWrite_keyv (v : Word) (e : Engine) :
    (statusWrite v e).keyv = e.keyv := rfl
@[simp] theorem statusWrite_rkw (v : Word) (e : Engine) :
    (statusWrite v e).rkw = e.rkw := rfl
@[simp] theorem statusWrite_fault (v : Word) (e : Engine) :
    (statusWrite v e).fault = e.fault := rfl
@[simp] theorem statusWrite_povf (v : Word) (e : Engine) :
    (statusWrite v e).povf = e.povf := rfl
@[simp] theorem statusWrite_err (v : Word) (e : Engine) :
    (statusWrite v e).err = e.err := rfl
@[simp] theorem statusWrite_opa (v : Word) (e : Engine) :
    (statusWrite v e).opa = e.opa := rfl
@[simp] theorem statusWrite_opb (v : Word) (e : Engine) :
    (statusWrite v e).opb = e.opb := rfl
@[simp] theorem statusWrite_idiff (v : Word) (e : Engine) :
    (statusWrite v e).idiff = e.idiff := rfl
@[simp] theorem statusWrite_tdiff (v : Word) (e : Engine) :
    (statusWrite v e).tdiff = e.tdiff := rfl
@[simp] theorem statusWrite_fmask (v : Word) (e : Engine) :
    (statusWrite v e).fmask = e.fmask := rfl
@[simp] theorem statusWrite_kmask (v : Word) (e : Engine) :
    (statusWrite v e).kmask = e.kmask := rfl
@[simp] theorem statusWrite_nsamp (v : Word) (e : Engine) :
    (statusWrite v e).nsamp = e.nsamp := rfl
@[simp] theorem statusWrite_result (v : Word) (e : Engine) :
    (statusWrite v e).result = e.result := rfl
@[simp] theorem statusWrite_npairs (v : Word) (e : Engine) :
    (statusWrite v e).npairs = e.npairs := rfl
@[simp] theorem statusWrite_cand0 (v : Word) (e : Engine) :
    (statusWrite v e).cand0 = e.cand0 := rfl
@[simp] theorem statusWrite_cand1 (v : Word) (e : Engine) :
    (statusWrite v e).cand1 = e.cand1 := rfl
@[simp] theorem statusWrite_cnt (v : Word) (e : Engine) :
    (statusWrite v e).cnt = e.cnt := rfl
@[simp] theorem statusWrite_rk (v : Word) (e : Engine) :
    (statusWrite v e).rk = e.rk := rfl
@[simp] theorem statusWrite_pbuf (v : Word) (e : Engine) :
    (statusWrite v e).pbuf = e.pbuf := rfl

/-! ### `doRead` -/

@[simp] theorem doRead_rdata (a : Addr) (s : State) : (doRead a s).rdata = (hostRead a s).1 := rfl
@[simp] theorem hostRead_eng (a : Addr) (s : State) : (hostRead a s).2.eng = s.eng := by
  unfold hostRead
  split <;> rfl
@[simp] theorem doRead_eng (a : Addr) (s : State) : (doRead a s).eng = s.eng := hostRead_eng a s
@[simp] theorem hostRead_prog (a : Addr) (s : State) : (hostRead a s).2.prog = s.prog := by
  unfold hostRead
  split <;> rfl
@[simp] theorem doRead_prog (a : Addr) (s : State) : (doRead a s).prog = s.prog := hostRead_prog a s
@[simp] theorem hostRead_turns (a : Addr) (s : State) : (hostRead a s).2.turns = s.turns := by
  unfold hostRead
  split <;> rfl
@[simp] theorem doRead_turns (a : Addr) (s : State) : (doRead a s).turns = s.turns := hostRead_turns a s
@[simp] theorem hostRead_rng (a : Addr) (s : State) : (hostRead a s).2.rng = s.rng := by
  unfold hostRead
  split <;> rfl
@[simp] theorem doRead_rng (a : Addr) (s : State) : (doRead a s).rng = s.rng := hostRead_rng a s

/-! ### `placeCommand` -/

@[simp] theorem placeCommand_eng (w : Word) (s : State) : (placeCommand w s).eng = s.eng.finish := rfl
@[simp] theorem placeCommand_prog (w : Word) (s : State) :
    (placeCommand w s).prog = .write Loc.cmd.addr w :: s.prog := rfl
@[simp] theorem placeCommand_turns (w : Word) (s : State) :
    (placeCommand w s).turns = .host :: s.turns := rfl
@[simp] theorem placeCommand_rng (w : Word) (s : State) : (placeCommand w s).rng = s.rng := rfl
@[simp] theorem placeCommand_rdata (w : Word) (s : State) : (placeCommand w s).rdata = s.rdata := rfl
@[simp] theorem placeCommand_draws (w : Word) (s : State) : (placeCommand w s).draws = s.draws := rfl

end Sys2Proof.Machine
end

