-- ==== Sys2Proof/Laws/Ops.lean ====
section
/-! SUPPORT. What each shared operation can do, said once: the pair buffer, recording an error,
issue, completion, and the two phases of a command. Every command is `runCommand` at its key rule
and its effect (`exec_eq_runCommand`), so a proof about all commands cites the lemmas here. -/

namespace Sys2Proof.Machine

/-! ### The pair buffer -/

theorem Memory.wfFrom_mono {lo lo' : Nat} (h : lo' ≤ lo) :
    ∀ m : Memory, m.wfFrom lo = true → m.wfFrom lo' = true
  | [], _ => rfl
  | (e, p) :: m, hm => by
    simp only [Memory.wfFrom, Bool.and_eq_true, decide_eq_true_eq] at hm ⊢
    exact ⟨⟨⟨h.trans hm.1.1.1, hm.1.1.2⟩, hm.1.2⟩, hm.2⟩

/-- Filling keeps the canonical form. -/
theorem Memory.fill_wf (ps : List Pair) : ∀ e, (Memory.fill e ps).wfFrom e = true := by
  induction ps with
  | nil => intro e; rfl
  | cons p ps ih =>
    intro e
    unfold Memory.fill
    split
    · rfl
    · rename_i hcap
      split
      · exact Memory.wfFrom_mono (Nat.le_succ e) _ (ih (e + 1))
      · rename_i hp
        simp only [Memory.wfFrom, Bool.and_eq_true, decide_eq_true_eq]
        exact ⟨⟨⟨le_refl e, Nat.lt_of_not_le hcap⟩, hp⟩, ih (e + 1)⟩

/-- The buffer PAIRGEN writes is in canonical form. -/
theorem Memory.ofPairs_wf (ps : List Pair) : (Memory.ofPairs ps).wf = true := Memory.fill_wf ps 0

/-- An entry below every listed one reads as an unlisted one. -/
theorem Memory.read_of_lt {lo n : Nat} (h : n < lo) :
    ∀ m : Memory, m.wfFrom lo = true → m.read n = Memory.unlisted
  | [], _ => rfl
  | (e, p) :: m, hm => by
    simp only [Memory.wfFrom, Bool.and_eq_true, decide_eq_true_eq] at hm
    have hne : e ≠ n := by omega
    simp only [Memory.read, if_neg hne]
    exact Memory.read_of_lt (by omega) m hm.2

/-- What a filled buffer reads as: pair `n - e` of the list, below the capacity. -/
theorem Memory.read_fill (ps : List Pair) :
    ∀ e n, e ≤ n → n < Config.pairCap → (Memory.fill e ps).read n = ps.getD (n - e) Memory.unlisted := by
  induction ps with
  | nil => intro e n _ _; simp [Memory.fill, Memory.read]
  | cons p ps ih =>
    intro e n hle hn
    unfold Memory.fill
    rw [if_neg (by omega)]
    rcases Nat.eq_or_lt_of_le hle with rfl | hlt
    · split
      · rename_i hp
        simp [Memory.read_of_lt (Nat.lt_succ_self e) _ (Memory.fill_wf ps (e + 1)), hp]
      · simp [Memory.read]
    · have hidx : n - e = (n - (e + 1)) + 1 := by omega
      split
      · rw [ih (e + 1) n hlt hn, hidx]; simp
      · simp only [Memory.read, if_neg (Nat.ne_of_lt hlt)]
        rw [ih (e + 1) n hlt hn, hidx]; simp

/-- Entry `n` of the buffer PAIRGEN writes. -/
theorem Memory.read_ofPairs (ps : List Pair) (n : Nat) (h : n < Config.pairCap) :
    (Memory.ofPairs ps).read n = ps.getD n Memory.unlisted := by
  exact Memory.read_fill ps 0 n (Nat.zero_le n) h

/-- Every listed entry of a filled buffer is one of the pairs. -/
theorem Memory.mem_of_mem_fill (ps : List Pair) :
    ∀ e n p, (n, p) ∈ Memory.fill e ps → p ∈ ps := by
  induction ps with
  | nil => intro e n p h; simp [Memory.fill] at h
  | cons q ps ih =>
    intro e n p h
    unfold Memory.fill at h
    split at h
    · simp at h
    · split at h
      · exact List.mem_cons_of_mem _ (ih _ _ _ h)
      · rcases List.mem_cons.1 h with h | h
        · simp only [Prod.mk.injEq] at h
          simp [h.2]
        · exact List.mem_cons_of_mem _ (ih _ _ _ h)

theorem Memory.mem_of_mem_ofPairs {ps : List Pair} {n : Nat} {p : Pair}
    (h : (n, p) ∈ Memory.ofPairs ps) : p ∈ ps := Memory.mem_of_mem_fill ps 0 n p h

/-! ### Recording an error, accepting -/

theorem raise_eq (c : ErrKind) (s : State) :
    raise c s =
      .next { s with eng := { s.eng with err := c, fault := s.eng.fault || decide (c = .nokey) } } :=
  rfl

/-- An error other than NOKEY changes ERR alone. -/
theorem raise_of_ne_nokey {c : ErrKind} (hc : c ≠ .nokey) (s : State) :
    raise c s = .next { s with eng := { s.eng with err := c } } := by
  simp [raise, hc]

theorem raise_nokey (s : State) :
    raise .nokey s = .next { s with eng := { s.eng with err := .nokey, fault := true } } := by
  simp [raise]

theorem accept_eq (i : Instr) (s : State) :
    accept i s = .next { s with eng := { s.eng with err := .ok, pend := some i } } := rfl

/-- A key check never answers OK, ILLEGAL or FAULTED. -/
theorem keyError_cases {k : KeyRule} {e : Engine} {c : ErrKind} (h : keyError k e = some c) :
    (c = .nokey ∧ k = .required ∧ e.keyv = false) ∨
      (c = .keyset ∧ (k = .unset ∨ k = .lockable) ∧ e.keyv = true) ∨
      (c = .keypart ∧ k = .lockable ∧ e.keyv = false ∧ e.rkw ≠ 0b1111) := by
  cases k <;> cases hk : e.keyv <;> simp [keyError, hk] at h <;> simp_all

/-- What the key check has established where it raises nothing. -/
theorem keyError_none {k : KeyRule} {e : Engine} (h : keyError k e = none) :
    (k = .required → e.keyv = true) ∧ (k = .unset → e.keyv = false) ∧
      (k = .lockable → e.keyv = false ∧ e.rkw = 0b1111) := by
  cases k <;> cases hk : e.keyv <;> simp [keyError, hk] at h <;> simp_all

/-- Everything a command's issue can do: FAULTED, a key error, or acceptance. -/
theorem issue_cases {i : Instr} {k : KeyRule} {s t : State} (h : issue i k s = .next t) :
    (s.eng.fault = true ∧ t = { s with eng := { s.eng with err := .faulted } }) ∨
      (s.eng.fault = false ∧ ∃ c, keyError k s.eng = some c ∧
        t = { s with eng := { s.eng with err := c, fault := decide (c = .nokey) } }) ∨
      (s.eng.fault = false ∧ keyError k s.eng = none ∧
        t = { s with eng := { s.eng with err := .ok, pend := some i } }) := by
  unfold issue at h
  split at h
  · rename_i hf
    left
    rw [raise_of_ne_nokey (by decide)] at h
    exact ⟨hf, by cases h; rfl⟩
  · rename_i hf
    have hf' : s.eng.fault = false := by simpa using hf
    right
    cases hk : keyError k s.eng with
    | some c =>
      left
      rw [hk] at h
      simp only [raise_eq, hf', Bool.false_or] at h
      exact ⟨hf', c, rfl, by cases h; rfl⟩
    | none =>
      right
      rw [hk] at h
      simp only [accept_eq] at h
      exact ⟨hf', rfl, by cases h; rfl⟩

theorem issue_faulted {i : Instr} {k : KeyRule} {s : State} (hf : s.eng.fault = true) :
    issue i k s = .next { s with eng := { s.eng with err := .faulted } } := by
  unfold issue
  rw [if_pos hf, raise_of_ne_nokey (by decide)]

theorem issue_rejected {i : Instr} {k : KeyRule} {s : State} {c : ErrKind}
    (hf : s.eng.fault = false) (hk : keyError k s.eng = some c) : issue i k s = raise c s := by
  simp [issue, hf, hk]

theorem issue_accepted {i : Instr} {k : KeyRule} {s : State}
    (hf : s.eng.fault = false) (hk : keyError k s.eng = none) :
    issue i k s = .next { s with eng := { s.eng with err := .ok, pend := some i } } := by
  simp [issue, hf, hk, accept_eq]

/-! ### The two phases of a command -/

theorem runCommand_idle {i : Instr} {k : KeyRule} {f : Engine → Engine} {s : State}
    (h : s.eng.pend = none) : runCommand i k f s = issue i k s := by
  simp [runCommand, Engine.busy, h]

theorem runCommand_completes {i : Instr} {k : KeyRule} {f : Engine → Engine} {s : State}
    (h : s.eng.pend = some i) (hq : s.eng.rngq.length = need i s.eng) :
    runCommand i k f s = .next { s with eng := (f s.eng).finish } := by
  simp [runCommand, Engine.busy, complete, h, hq]

theorem runCommand_waits {i j : Instr} {k : KeyRule} {f : Engine → Engine} {s : State}
    (h : s.eng.pend = some j) (hw : j ≠ i ∨ s.eng.rngq.length ≠ need i s.eng) :
    runCommand i k f s = .next s := by
  have : ¬(s.eng.pend = some i ∧ s.eng.rngq.length = need i s.eng) := by
    rintro ⟨h1, h2⟩
    rw [h] at h1
    rcases hw with hw | hw
    · exact hw (by simpa using h1)
    · exact hw h2
  simp [runCommand, Engine.busy, complete, h] at this ⊢
  intro h1 h2
  exact absurd h2 (this h1)

/-- Everything a command can do: wait, complete, or one of the outcomes of its issue. -/
theorem runCommand_cases {i : Instr} {k : KeyRule} {f : Engine → Engine} {s t : State}
    (h : runCommand i k f s = .next t) :
    (t = s ∧ s.eng.pend ≠ none) ∨
      (s.eng.pend = some i ∧ s.eng.rngq.length = need i s.eng ∧
        t = { s with eng := (f s.eng).finish }) ∨
      (s.eng.pend = none ∧ s.eng.fault = true ∧
        t = { s with eng := { s.eng with err := .faulted } }) ∨
      (s.eng.pend = none ∧ s.eng.fault = false ∧ ∃ c, keyError k s.eng = some c ∧
        t = { s with eng := { s.eng with err := c, fault := decide (c = .nokey) } }) ∨
      (s.eng.pend = none ∧ s.eng.fault = false ∧ keyError k s.eng = none ∧
        t = { s with eng := { s.eng with err := .ok, pend := some i } }) := by
  cases hp : s.eng.pend with
  | none =>
    rw [runCommand_idle hp] at h
    rcases issue_cases h with h | h | h
    · exact .inr (.inr (.inl ⟨rfl, h⟩))
    · exact .inr (.inr (.inr (.inl ⟨rfl, h⟩)))
    · exact .inr (.inr (.inr (.inr ⟨rfl, h⟩)))
  | some j =>
    by_cases hw : j ≠ i ∨ s.eng.rngq.length ≠ need i s.eng
    · rw [runCommand_waits hp hw] at h
      cases h
      exact .inl ⟨rfl, by simp⟩
    · have hw := not_or.1 hw
      have hji : j = i := not_not.1 hw.1
      subst hji
      rw [runCommand_completes hp (not_not.1 hw.2)] at h
      cases h
      exact .inr (.inl ⟨rfl, not_not.1 hw.2, rfl⟩)

theorem runCommand_next (i : Instr) (k : KeyRule) (f : Engine → Engine) (s : State) :
    ∃ t, runCommand i k f s = .next t := by
  unfold runCommand complete issue
  split
  · split
    · exact ⟨_, rfl⟩
    · exact ⟨_, rfl⟩
  · split
    · exact ⟨_, rfl⟩
    · split
      · exact ⟨_, rfl⟩
      · exact ⟨_, rfl⟩

/-! ### Every command is `runCommand` -/

/-- Column "key" of 30_encoding.md R52, command by command. -/
def keyRule : Instr → KeyRule
  | .sub | .subi | .diff | .diffi | .mix | .encr | .decr | .enclr | .declr | .filt => .free
  | .enc | .dec | .pairgen | .recover => .required
  | .keylock => .lockable
  | .keyrand => .unset

/-- `Exec_<mnemonic>`, command by command. -/
def effect (i : Instr) (e : Engine) : Engine :=
  match i with
  | .sub => { e with result := substitute sbox e.opa }
  | .subi => { e with result := substitute sinv e.opa }
  | .diff => { e with result := diffuse e.opa }
  | .diffi => { e with result := inverseDiffuse e.opa }
  | .mix => { e with result := e.opa ^^^ e.opb }
  | .encr => { e with result := encryptRound e.opa e.opb }
  | .decr => { e with result := decryptRound e.opa e.opb }
  | .enclr => { e with result := encryptLastRound e.opa e.opb }
  | .declr => { e with result := decryptLastRound e.opa e.opb }
  | .enc => { e with result := encrypt e.rk e.opa }
  | .dec => { e with result := decrypt e.rk e.opa }
  | .filt => { e with result := filtResult e.fmask e.opa }
  | .keylock => { e with keyv := true }
  | .keyrand => keyrandEffect e
  | .pairgen => pairgenEffect e
  | .recover => recoverEffect e

theorem exec_eq_runCommand (i : Instr) (s : State) :
    exec i s = runCommand i (keyRule i) (effect i) s := by
  cases i <;> rfl

theorem exec_idle {i : Instr} {s : State} (h : s.eng.pend = none) :
    exec i s = issue i (keyRule i) s := by
  rw [exec_eq_runCommand, runCommand_idle h]

theorem exec_completes {i : Instr} {s : State} (h : s.eng.pend = some i)
    (hq : s.eng.rngq.length = need i s.eng) :
    exec i s = .next { s with eng := (effect i s.eng).finish } := by
  rw [exec_eq_runCommand, runCommand_completes h hq]

theorem exec_waits {i j : Instr} {s : State} (h : s.eng.pend = some j)
    (hw : j ≠ i ∨ s.eng.rngq.length ≠ need i s.eng) : exec i s = .next s := by
  rw [exec_eq_runCommand, runCommand_waits h hw]

theorem exec_next (i : Instr) (s : State) : ∃ t, exec i s = .next t := by
  rw [exec_eq_runCommand]
  exact runCommand_next _ _ _ _

/-- Everything `exec` can do, for every command at once. -/
theorem exec_cases {i : Instr} {s t : State} (h : exec i s = .next t) :
    (t = s ∧ s.eng.pend ≠ none) ∨
      (s.eng.pend = some i ∧ s.eng.rngq.length = need i s.eng ∧
        t = { s with eng := (effect i s.eng).finish }) ∨
      (s.eng.pend = none ∧ s.eng.fault = true ∧
        t = { s with eng := { s.eng with err := .faulted } }) ∨
      (s.eng.pend = none ∧ s.eng.fault = false ∧ ∃ c, keyError (keyRule i) s.eng = some c ∧
        t = { s with eng := { s.eng with err := c, fault := decide (c = .nokey) } }) ∨
      (s.eng.pend = none ∧ s.eng.fault = false ∧ keyError (keyRule i) s.eng = none ∧
        t = { s with eng := { s.eng with err := .ok, pend := some i } }) := by
  rw [exec_eq_runCommand] at h
  exact runCommand_cases h

/-- The registers no command writes at completion (30_encoding.md R52). -/
theorem effect_frame (i : Instr) (e : Engine) :
    (effect i e).opa = e.opa ∧ (effect i e).opb = e.opb ∧ (effect i e).idiff = e.idiff ∧
      (effect i e).tdiff = e.tdiff ∧ (effect i e).fmask = e.fmask ∧
      (effect i e).kmask = e.kmask ∧ (effect i e).nsamp = e.nsamp ∧ (effect i e).wdb = e.wdb ∧
      (effect i e).wdl = e.wdl ∧ (effect i e).err = e.err ∧ (effect i e).fault = e.fault := by
  cases i <;> first
    | exact ⟨rfl, rfl, rfl, rfl, rfl, rfl, rfl, rfl, rfl, rfl, rfl⟩
    | (simp only [effect, keyrandEffect]
       split <;> exact ⟨rfl, rfl, rfl, rfl, rfl, rfl, rfl, rfl, rfl, rfl, rfl⟩)

end Sys2Proof.Machine
end

