-- ==== Sys2Proof/Laws/Layers.lean ====
section
/-! SUPPORT. Blocks as three nibbles: each operation on blocks, position by position (00_scope.md
R9, R10; 40_layers.md R57). -/

namespace Sys2Proof.Machine

/-! ### Tables -/

/-- A property of all sixteen nibbles, one by one. -/
theorem forall_nibble {P : Nibble → Prop} (h : ∀ n (hn : n < 16), P ⟨⟨n, hn⟩⟩) : ∀ x, P x :=
  fun x => h x.toNat x.isLt

@[simp] theorem nget_tabulate {α : Type} (f : Nibble → α) (x : Nibble) : nget (tabulate f) x = f x := by
  revert x
  refine forall_nibble fun n hn => ?_
  interval_cases n <;> rfl

/-- Two tables are equal where all sixteen entries are. -/
theorem table_ext {α : Type} {t u : Vector α 16} (h : ∀ x, nget t x = nget u x) : t = u := by
  ext n hn
  have := h (BitVec.ofNat 4 n)
  simpa [nget, Nat.mod_eq_of_lt hn] using this

theorem mem_nibbles (x : Nibble) : x ∈ nibbles := by
  revert x
  decide

theorem nibbles_nodup : nibbles.Nodup := by decide

/-! ### Nibbles of a block -/

theorem nib_getLsbD (b : Block) (p : Fin 3) (j : Nat) (hj : j < 4) :
    (nib b p).getLsbD j = b.getLsbD (8 - 4 * p.val + j) := by
  fin_cases p <;> simp [nib, hj]

@[simp] theorem nib_pack_zero (a b c : Nibble) : nib (pack a b c) 0 = a := by
  apply BitVec.eq_of_getLsbD_eq
  intro i hi
  simp only [nib, pack, BitVec.getLsbD_extractLsb', BitVec.getLsbD_append, hi]
  simp [show ¬(8 + i < 4) by omega, show ¬(8 + i - 4 < 4) by omega, show 8 + i - 4 - 4 = i by omega]

@[simp] theorem nib_pack_one (a b c : Nibble) : nib (pack a b c) 1 = b := by
  apply BitVec.eq_of_getLsbD_eq
  intro i hi
  simp only [nib, pack, BitVec.getLsbD_extractLsb', BitVec.getLsbD_append, hi]
  simp [show ¬(4 + i < 4) by omega, hi]

@[simp] theorem nib_pack_two (a b c : Nibble) : nib (pack a b c) 2 = c := by
  apply BitVec.eq_of_getLsbD_eq
  intro i hi
  simp only [nib, pack, BitVec.getLsbD_extractLsb', BitVec.getLsbD_append, hi]
  simp [hi]

/-- Two blocks are equal where their three nibbles are. -/
theorem block_ext {a b : Block} (h0 : nib a 0 = nib b 0) (h1 : nib a 1 = nib b 1)
    (h2 : nib a 2 = nib b 2) : a = b := by
  apply BitVec.eq_of_getLsbD_eq
  intro i hi
  have key (p : Fin 3) (hp : nib a p = nib b p) (j : Nat) (hj : j < 4)
      (hij : 8 - 4 * p.val + j = i) : a.getLsbD i = b.getLsbD i := by
    rw [← hij, ← nib_getLsbD a p j hj, ← nib_getLsbD b p j hj, hp]
  rcases lt_or_ge i 4 with h | h
  · exact key 2 h2 i h (by simp)
  · rcases lt_or_ge i 8 with h' | h'
    · exact key 1 h1 (i - 4) (by omega) (by simp; omega)
    · exact key 0 h0 (i - 8) (by omega) (by simp; omega)

theorem block_eq_iff {a b : Block} : a = b ↔ ∀ p : Fin 3, nib a p = nib b p :=
  ⟨fun h _ => h ▸ rfl, fun h => block_ext (h 0) (h 1) (h 2)⟩

@[simp] theorem pack_nib (b : Block) : pack (nib b 0) (nib b 1) (nib b 2) = b :=
  block_ext (by simp) (by simp) (by simp)

@[simp] theorem nib_xor (a b : Block) (p : Fin 3) : nib (a ^^^ b) p = nib a p ^^^ nib b p := by
  fin_cases p <;> simp [nib, BitVec.extractLsb'_xor]

@[simp] theorem nib_and (a b : Block) (p : Fin 3) : nib (a &&& b) p = nib a p &&& nib b p := by
  fin_cases p <;> simp [nib, BitVec.extractLsb'_and]

@[simp] theorem nib_zero (p : Fin 3) : nib 0#12 p = 0#4 := by
  fin_cases p <;> rfl

/-! ### The layers, nibble by nibble -/

@[simp] theorem nib_substitute (t : Vector Nibble 16) (b : Block) (p : Fin 3) :
    nib (substitute t b) p = nget t (nib b p) := by
  fin_cases p <;> simp [substitute]

@[simp] theorem nib_guess (km : Block) (k : Nibble) (p : Fin 3) :
    nib (guess km k) p = nib km p &&& k := by
  fin_cases p <;> simp [guess]

@[simp] theorem nib_dmask (t : Block) (p : Fin 3) : nib (dmask t) p = maskNibble (nib t p) := by
  fin_cases p <;> simp [dmask]

@[simp] theorem nib_drawBlock_zero (a b c : Byte) : nib (drawBlock a b c) 0 = lowNibble a := by
  simp [drawBlock]

@[simp] theorem nib_drawBlock_one (a b c : Byte) : nib (drawBlock a b c) 1 = lowNibble b := by
  simp [drawBlock]

@[simp] theorem nib_drawBlock_two (a b c : Byte) : nib (drawBlock a b c) 2 = lowNibble c := by
  simp [drawBlock]

end Sys2Proof.Machine
end

