-- ==== Sys2Proof/Laws/Attack.lean ====
section
/-! SUPPORT. The attack datapath: the pairs a generation keeps, the counters, and the running best
of the selection (44_attack.md). -/

namespace Sys2Proof.Machine

/-! ### The filter -/

theorem ult_zero_iff {n : Nat} (x : BitVec n) : (0#n).ult x = true ↔ x ≠ 0 := by
  simp only [BitVec.ult, BitVec.toNat_ofNat, Nat.zero_mod, decide_eq_true_eq, ne_eq]
  rw [← BitVec.toNat_inj]
  simp only [BitVec.ofNat_eq_ofNat, BitVec.toNat_ofNat, Nat.zero_mod]
  omega

/-- The filter, position by position (R88). -/
theorem filterDiff_iff (m d : Block) :
    filterDiff m d = true ↔ ∃ p : Fin 3, nib m p &&& nib d p ≠ 0 := by
  simp only [filterDiff, Bool.or_eq_true, ult_zero_iff]
  constructor
  · rintro ((h | h) | h)
    · exact ⟨0, h⟩
    · exact ⟨1, h⟩
    · exact ⟨2, h⟩
  · rintro ⟨p, h⟩
    fin_cases p
    · exact .inl (.inl h)
    · exact .inl (.inr h)
    · exact .inr h

@[simp] theorem filterDiff_zero_right (m : Block) : filterDiff m 0#12 = false := by
  rw [Bool.eq_false_iff]
  intro h
  obtain ⟨p, hp⟩ := (filterDiff_iff m 0#12).1 h
  simp at hp

@[simp] theorem filterDiff_zero_left (d : Block) : filterDiff 0#12 d = false := by
  rw [Bool.eq_false_iff]
  intro h
  obtain ⟨p, hp⟩ := (filterDiff_iff 0#12 d).1 h
  simp at hp

/-! ### Pair generation -/

theorem generatePairs_succ (rk : Vector Block 4) (idf m : Block) (n : Nat) (b0 b1 b2 : Byte)
    (q : List Byte) :
    generatePairs rk idf m (n + 1) (b0 :: b1 :: b2 :: q) =
      [samplePair rk idf (drawBlock b0 b1 b2)].filter (fun pr => filterDiff m (pr.c0 ^^^ pr.c1)) ++
        generatePairs rk idf m n q := by
  simp only [generatePairs, List.filter_cons, List.filter_nil]
  split <;> rfl

/-- A generation keeps at most one pair for a sample. -/
theorem generatePairs_length_le (rk : Vector Block 4) (idf m : Block) :
    ∀ n q, (generatePairs rk idf m n q).length ≤ n := by
  intro n
  induction n with
  | zero => intro q; simp [generatePairs]
  | succ n ih =>
    intro q
    match q with
    | [] | [_] | [_, _] => simp [generatePairs]
    | b0 :: b1 :: b2 :: q =>
      have := ih q
      simp only [generatePairs]
      split
      · simp only [List.length_cons]; omega
      · omega

/-- Every kept pair passed the filter. -/
theorem filterDiff_of_mem_generatePairs {rk : Vector Block 4} {idf m : Block} :
    ∀ {n q pr}, pr ∈ generatePairs rk idf m n q → filterDiff m (pr.c0 ^^^ pr.c1) = true := by
  intro n
  induction n with
  | zero => intro q pr h; simp [generatePairs] at h
  | succ n ih =>
    intro q pr h
    match q with
    | [] | [_] | [_, _] => simp [generatePairs] at h
    | b0 :: b1 :: b2 :: q =>
      rw [generatePairs_succ] at h
      rcases List.mem_append.1 h with h | h
      · exact (List.mem_filter.1 h).2
      · exact ih h

/-- A kept pair's two ciphertexts differ. -/
theorem ne_of_mem_generatePairs {rk : Vector Block 4} {idf m : Block} {n : Nat} {q : List Byte}
    {pr : Pair} (h : pr ∈ generatePairs rk idf m n q) : pr.c0 ≠ pr.c1 := by
  intro e
  have := filterDiff_of_mem_generatePairs h
  rw [e] at this
  simp at this

/-- Every kept pair is the sample pair of some plaintext. -/
theorem samplePair_of_mem_generatePairs {rk : Vector Block 4} {idf m : Block} :
    ∀ {n q pr}, pr ∈ generatePairs rk idf m n q → ∃ p0, pr = samplePair rk idf p0 := by
  intro n
  induction n with
  | zero => intro q pr h; simp [generatePairs] at h
  | succ n ih =>
    intro q pr h
    match q with
    | [] | [_] | [_, _] => simp [generatePairs] at h
    | b0 :: b1 :: b2 :: q =>
      rw [generatePairs_succ] at h
      rcases List.mem_append.1 h with h | h
      · exact ⟨_, List.mem_singleton.1 (List.mem_filter.1 h).1⟩
      · exact ih h

/-- The count of kept pairs fits the 16 bits of NPAIRS. -/
theorem generatePairs_length_toNat (rk : Vector Block 4) (idf m : Block) (n : Count)
    (q : List Byte) : (BitVec.ofNat 16 (generatePairs rk idf m n.toNat q).length).toNat =
      (generatePairs rk idf m n.toNat q).length := by
  have := generatePairs_length_le rk idf m n.toNat q
  have := n.isLt
  rw [BitVec.toNat_ofNat, Nat.mod_eq_of_lt (by omega)]

/-! ### Counters -/

@[simp] theorem nget_countPairs (ps : List Pair) (tdf km : Block) (k : Nibble) :
    nget (countPairs ps tdf km) k = BitVec.ofNat 16 (countFor ps tdf km k) := by
  simp [countPairs]

theorem countFor_le_length (ps : List Pair) (tdf km : Block) (k : Nibble) :
    countFor ps tdf km k ≤ ps.length := List.countP_le_length

/-- `hit`, position by position: the decrypted nibbles differ by exactly the target's (R95). -/
theorem hit_iff (tdf km : Block) (k : Nibble) (pr : Pair) :
    hit tdf km k pr = true ↔ ∀ p : Fin 3,
      nget sinv (nib pr.c0 p ^^^ (nib km p &&& k)) ^^^ nget sinv (nib pr.c1 p ^^^ (nib km p &&& k)) =
        nib tdf p := by
  simp only [hit, beq_iff_eq, block_eq_iff, decryptLastRound, nib_xor, nib_substitute, nib_guess]

/-- Counters that agree on every pair's hit agree. -/
theorem countFor_congr {ps : List Pair} {tdf km tdf' km' : Block} {k k' : Nibble}
    (h : ∀ pr ∈ ps, hit tdf km k pr = hit tdf' km' k' pr) :
    countFor ps tdf km k = countFor ps tdf' km' k' := by
  unfold countFor
  exact List.countP_congr fun pr hpr => by rw [h pr hpr]

/-! ### Selection -/

@[simp] theorem nget_zeroAt_self (c : Vector Count 16) (t : Nibble) : nget (zeroAt c t) t = 0 := by
  simp [nget, zeroAt]

theorem nget_zeroAt_ne (c : Vector Count 16) {t k : Nibble} (h : k ≠ t) :
    nget (zeroAt c t) k = nget c k := by
  have hne : t.toNat ≠ k.toNat := fun e => h (BitVec.eq_of_toNat_eq e.symm)
  simp [nget, zeroAt, hne]

/-- The scan of `argmaxFirst` over a list of candidates, from a running best. -/
def scanBest (c : Vector Count 16) (l : List Nibble) (best : Nibble) : Nibble :=
  l.foldl (fun b k => if nget c b < nget c k then k else b) best

theorem argmaxFirst_eq (c : Vector Count 16) : argmaxFirst c = scanBest c nibbles 0 := rfl

/-- The scan ends at a candidate at least as high as its start and every listed one. -/
theorem scanBest_ge (c : Vector Count 16) (l : List Nibble) : ∀ best,
    (nget c best).toNat ≤ (nget c (scanBest c l best)).toNat ∧
      ∀ k ∈ l, (nget c k).toNat ≤ (nget c (scanBest c l best)).toNat := by
  induction l with
  | nil => intro best; simp [scanBest]
  | cons x l ih =>
    intro best
    simp only [scanBest, List.foldl_cons] at ih ⊢
    split
    · rename_i hlt
      have hlt' : (nget c best).toNat < (nget c x).toNat := hlt
      obtain ⟨h1, h2⟩ := ih x
      refine ⟨by omega, fun k hk => ?_⟩
      rcases List.mem_cons.1 hk with rfl | hk
      · exact h1
      · exact h2 k hk
    · rename_i hlt
      have hlt' : ¬(nget c best).toNat < (nget c x).toNat := hlt
      obtain ⟨h1, h2⟩ := ih best
      refine ⟨h1, fun k hk => ?_⟩
      rcases List.mem_cons.1 hk with rfl | hk
      · omega
      · exact h2 k hk

/-- The scan moves off its start only to a strictly higher candidate of the list, and every
candidate before the one it ends at is strictly lower. -/
theorem scanBest_first (c : Vector Count 16) (l : List Nibble) : ∀ best,
    scanBest c l best = best ∨
      ∃ l1 l2, l = l1 ++ scanBest c l best :: l2 ∧
        (nget c best).toNat < (nget c (scanBest c l best)).toNat ∧
        ∀ k ∈ l1, (nget c k).toNat < (nget c (scanBest c l best)).toNat := by
  induction l with
  | nil => intro best; exact .inl rfl
  | cons x l ih =>
    intro best
    by_cases hlt : nget c best < nget c x
    · have e : scanBest c (x :: l) best = scanBest c l x := by simp [scanBest, hlt]
      have hlt' : (nget c best).toNat < (nget c x).toNat := hlt
      rw [e]
      rcases ih x with h | ⟨l1, l2, h1, h2, h3⟩
      · refine .inr ⟨[], l, by rw [h]; rfl, by rw [h]; exact hlt', by simp⟩
      · refine .inr ⟨x :: l1, l2, by rw [List.cons_append, ← h1], by omega, fun k hk => ?_⟩
        rcases List.mem_cons.1 hk with rfl | hk
        · exact h2
        · exact h3 k hk
    · have e : scanBest c (x :: l) best = scanBest c l best := by simp [scanBest, hlt]
      have hlt' : ¬(nget c best).toNat < (nget c x).toNat := hlt
      rw [e]
      rcases ih best with h | ⟨l1, l2, h1, h2, h3⟩
      · exact .inl h
      · refine .inr ⟨x :: l1, l2, by rw [List.cons_append, ← h1], h2, fun k hk => ?_⟩
        rcases List.mem_cons.1 hk with rfl | hk
        · omega
        · exact h3 k hk

/-- In the rising list of nibbles, what is below a member stands before it. -/
theorem mem_of_nibbles_split {l1 l2 : List Nibble} {x k : Nibble} (h : nibbles = l1 ++ x :: l2)
    (hk : k.toNat < x.toNat) : k ∈ l1 := by
  have h0 : ∀ j (hj : j < nibbles.length), (nibbles[j]).toNat = j := by
    intro j hj
    have : j < 16 := hj
    interval_cases j <;> rfl
  have hl : nibbles.length = l1.length + (l2.length + 1) := by rw [h]; simp
  have hx : x.toNat = l1.length := by
    rw [← h0 l1.length (by omega)]
    simp [h]
  have hkl : k.toNat < l1.length := by omega
  have e : nibbles[k.toNat]'(by omega) = l1[k.toNat] := by
    simp [h, List.getElem_append_left hkl]
  have : k = l1[k.toNat] := by
    apply BitVec.eq_of_toNat_eq
    exact (h0 k.toNat (by omega)).symm.trans (congrArg BitVec.toNat e)
  rw [this]
  exact List.getElem_mem _

end Sys2Proof.Machine
end

