-- ==== Sys2Proof/Laws/Decode.lean ====
section
/-! SUPPORT. What the address decoder and the command decoder answer, region by region. -/

namespace Sys2Proof

/-! ### Command words -/

theorem opField_toNat (w : Word) : (opField w).toNat = w.toNat % 32 := by
  simp [opField, BitVec.extractLsb'_toNat]

theorem rsvField_eq_zero (w : Word) : rsvField w = 0 ↔ w.toNat / 32 = 0 := by
  have h := w.isLt
  rw [← BitVec.toNat_inj]
  simp only [rsvField, BitVec.extractLsb'_toNat, Nat.shiftRight_eq_div_pow, BitVec.ofNat_eq_ofNat,
    BitVec.toNat_ofNat]
  omega

/-- Decoding in terms of the word's number: the opcode map where the reserved field is 0. -/
theorem decodeWord_of_lt (w : Word) (h : w.toNat < 32) : decodeWord w = decodeOp (opField w) := by
  have : rsvField w = 0 := (rsvField_eq_zero w).2 (by omega)
  simp [decodeWord, this]

theorem decodeWord_of_ge (w : Word) (h : 32 ≤ w.toNat) : decodeWord w = none := by
  have : ¬rsvField w = 0 := fun hz => by have := (rsvField_eq_zero w).1 hz; omega
  exact if_neg this

/-- A row of 32 bits is read whole. -/
theorem tableWord_32 (w : Word) : tableWord 32 w.toNat = w := by
  unfold tableWord
  rw [Nat.mod_eq_of_lt w.isLt, BitVec.ofNat_toNat, BitVec.setWidth_eq]

/-! ### Addresses -/

section
variable (a : Addr)

theorem locate_unmapped (h : unmappedRange a = true) : locate a = .unmapped a := by
  have := a.isLt
  simp only [unmappedRange, Bool.or_eq_true, Bool.and_eq_true, decide_eq_true_eq] at h
  unfold locate
  rcases h with ((h | h) | h) | h <;> simp only [] <;> repeat (first | rw [if_neg (by omega)] | rw [if_pos (by omega)])

theorem locate_low (h : a.toNat < 0x00C) : locate a = locateLow a.toNat := by
  simp only [locate, h, if_true]

theorem locate_cnt (k : Nibble) (h : a.toNat = 0x010 + k.toNat) : locate a = .cnt k := by
  have := k.isLt
  unfold locate
  simp only []
  repeat (first | rw [if_neg (by omega)] | rw [if_pos (by omega)])
  simp [h]

theorem locate_rk (r : BitVec 2) (h : a.toNat = 0x020 + r.toNat) : locate a = .rk r := by
  have := r.isLt
  unfold locate
  simp only []
  repeat (first | rw [if_neg (by omega)] | rw [if_pos (by omega)])
  simp [h]

theorem locate_sboxt (x : Nibble) (h : a.toNat = 0x030 + x.toNat) : locate a = .sboxt x := by
  have := x.isLt
  unfold locate
  simp only []
  repeat (first | rw [if_neg (by omega)] | rw [if_pos (by omega)])
  simp [h]

theorem locate_sinvt (x : Nibble) (h : a.toNat = 0x040 + x.toNat) : locate a = .sinvt x := by
  have := x.isLt
  unfold locate
  simp only []
  repeat (first | rw [if_neg (by omega)] | rw [if_pos (by omega)])
  simp [h]

theorem locate_ddt (i o : Nibble) (h : a.toNat = 0x100 + 16 * i.toNat + o.toNat) :
    locate a = .ddt i o := by
  have := i.isLt
  have := o.isLt
  have h1 : (a.toNat - 0x100) / 16 = i.toNat := by omega
  have h2 : (a.toNat - 0x100) % 16 = o.toNat := by omega
  unfold locate
  simp only []
  repeat (first | rw [if_neg (by omega)] | rw [if_pos (by omega)])
  simp [h1, h2]

theorem locate_pxt (i j : Nibble) (h : a.toNat = 0x200 + 16 * i.toNat + j.toNat) :
    locate a = .pxt i j := by
  have := i.isLt
  have := j.isLt
  have h1 : (a.toNat - 0x200) / 16 = i.toNat := by omega
  have h2 : (a.toNat - 0x200) % 16 = j.toNat := by omega
  unfold locate
  simp only []
  repeat (first | rw [if_neg (by omega)] | rw [if_pos (by omega)])
  simp [h1, h2]

theorem locate_pbuf (n : BitVec 11) (h : a.toNat = 0x800 + n.toNat) : locate a = .pbuf n := by
  have := n.isLt
  unfold locate
  simp only []
  repeat rw [if_neg (by omega)]
  simp [h]

end

/-- Every address lies in one region of the map (20_memory.md R32), and `locate` says which. -/
theorem locate_cases (a : Addr) :
    (a.toNat < 0x00C ∧ locate a = locateLow a.toNat) ∨
      (unmappedRange a = true ∧ locate a = .unmapped a) ∨
      (∃ k, a.toNat = 0x010 + BitVec.toNat k ∧ locate a = .cnt k) ∨
      (∃ r, a.toNat = 0x020 + BitVec.toNat r ∧ locate a = .rk r) ∨
      (∃ x, a.toNat = 0x030 + BitVec.toNat x ∧ locate a = .sboxt x) ∨
      (∃ x, a.toNat = 0x040 + BitVec.toNat x ∧ locate a = .sinvt x) ∨
      (∃ i o, a.toNat = 0x100 + 16 * BitVec.toNat i + BitVec.toNat o ∧ locate a = .ddt i o) ∨
      (∃ i j, a.toNat = 0x200 + 16 * BitVec.toNat i + BitVec.toNat j ∧ locate a = .pxt i j) ∨
      (∃ n, a.toNat = 0x800 + BitVec.toNat n ∧ locate a = .pbuf n) := by
  have ha := a.isLt
  have split16 (b n : Nat) (hb : b ≤ n) (hn : n < b + 256) :
      n = b + 16 * (BitVec.ofNat 4 ((n - b) / 16)).toNat + (BitVec.ofNat 4 ((n - b) % 16)).toNat := by
    simp only [BitVec.toNat_ofNat]
    omega
  by_cases h : a.toNat < 0x00C
  · exact .inl ⟨h, locate_low a h⟩
  by_cases hu : unmappedRange a = true
  · exact .inr (.inl ⟨hu, locate_unmapped a hu⟩)
  have hu' := hu
  simp only [unmappedRange, Bool.or_eq_true, Bool.and_eq_true, decide_eq_true_eq] at hu'
  by_cases h1 : a.toNat < 0x020
  · have e : a.toNat = 0x010 + (BitVec.ofNat 4 (a.toNat - 0x010)).toNat := by
      simp only [BitVec.toNat_ofNat]; omega
    exact .inr (.inr (.inl ⟨_, e, locate_cnt a _ e⟩))
  by_cases h2 : a.toNat < 0x030
  · have e : a.toNat = 0x020 + (BitVec.ofNat 2 (a.toNat - 0x020)).toNat := by
      simp only [BitVec.toNat_ofNat]; omega
    exact .inr (.inr (.inr (.inl ⟨_, e, locate_rk a _ e⟩)))
  by_cases h3 : a.toNat < 0x040
  · have e : a.toNat = 0x030 + (BitVec.ofNat 4 (a.toNat - 0x030)).toNat := by
      simp only [BitVec.toNat_ofNat]; omega
    exact .inr (.inr (.inr (.inr (.inl ⟨_, e, locate_sboxt a _ e⟩))))
  by_cases h4 : a.toNat < 0x050
  · have e : a.toNat = 0x040 + (BitVec.ofNat 4 (a.toNat - 0x040)).toNat := by
      simp only [BitVec.toNat_ofNat]; omega
    exact .inr (.inr (.inr (.inr (.inr (.inl ⟨_, e, locate_sinvt a _ e⟩)))))
  by_cases h5 : a.toNat < 0x200
  · have e := split16 0x100 a.toNat (by omega) (by omega)
    exact .inr (.inr (.inr (.inr (.inr (.inr (.inl ⟨_, _, e, locate_ddt a _ _ e⟩))))))
  by_cases h6 : a.toNat < 0x300
  · have e := split16 0x200 a.toNat (by omega) (by omega)
    exact .inr (.inr (.inr (.inr (.inr (.inr (.inr (.inl ⟨_, _, e, locate_pxt a _ _ e⟩)))))))
  · have e : a.toNat = 0x800 + (BitVec.ofNat 11 (a.toNat - 0x800)).toNat := by
      simp only [BitVec.toNat_ofNat]; omega
    exact .inr (.inr (.inr (.inr (.inr (.inr (.inr (.inr ⟨_, e, locate_pbuf a _ e⟩)))))))

/-- CMD is word address 0 alone. -/
theorem locate_eq_cmd (a : Addr) : locate a = .cmd ↔ a = 0x000 := by
  constructor
  · intro h
    rcases locate_cases a with ⟨hl, e⟩ | ⟨_, e⟩ | ⟨_, _, e⟩ | ⟨_, _, e⟩ | ⟨_, _, e⟩ | ⟨_, _, e⟩ |
      ⟨_, _, _, e⟩ | ⟨_, _, _, e⟩ | ⟨_, _, e⟩ <;> rw [h] at e
    · have : a.toNat = 0 := by
        generalize a.toNat = n at hl e
        interval_cases n <;> first | rfl | exact absurd e (by decide)
      exact BitVec.eq_of_toNat_eq (by simpa using this)
    all_goals exact absurd e (by simp)
  · rintro rfl
    rfl

/-- The place of a mapped address and the address of that place agree. -/
theorem addr_locate (a : Addr) : (locate a).addr = a := by
  apply BitVec.eq_of_toNat_eq
  rcases locate_cases a with ⟨hl, e⟩ | ⟨_, e⟩ | ⟨k, h, e⟩ | ⟨k, h, e⟩ | ⟨k, h, e⟩ | ⟨k, h, e⟩ |
    ⟨i, o, h, e⟩ | ⟨i, o, h, e⟩ | ⟨k, h, e⟩ <;> rw [e]
  · generalize hn : a.toNat = n at hl
    interval_cases n <;> simp [locateLow, Loc.addr]
  · rfl
  all_goals
    simp only [Loc.addr, BitVec.toNat_ofNat]
    first
    | (have := k.isLt; omega)
    | (have := i.isLt; have := o.isLt; omega)

/-- `locate` answers a well-formed place for every address. -/
theorem locate_wf (a : Addr) : (locate a).wf = true := by
  rcases locate_cases a with ⟨hl, e⟩ | ⟨hu, e⟩ | ⟨k, h, e⟩ | ⟨k, h, e⟩ | ⟨k, h, e⟩ | ⟨k, h, e⟩ |
    ⟨i, o, h, e⟩ | ⟨i, o, h, e⟩ | ⟨k, h, e⟩ <;> rw [e]
  · generalize a.toNat = n at hl
    interval_cases n <;> rfl
  · exact hu
  all_goals rfl

end Sys2Proof
end

