-- ==== Sys2Proof/Laws/Operands.lean ====
section
/-! SUPPORT. The bits of blocks and of the words the host sees, as numbers (00_scope.md R9;
20_memory.md R33, R37). -/

namespace Sys2Proof.Machine

/-- A field put above an `n`-bit field, as a sum. -/
theorem shiftLeft_or_eq (p q n : Nat) (h : q < 2 ^ n) : p <<< n ||| q = p * 2 ^ n + q := by
  rw [Nat.shiftLeft_eq, Nat.mul_comm, Nat.two_pow_add_eq_or_of_lt h]

/-! ### Blocks -/

theorem pack_toNat (a b c : Nibble) :
    (pack a b c).toNat = a.toNat * 256 + b.toNat * 16 + c.toNat := by
  have := b.isLt
  have := c.isLt
  simp only [pack, BitVec.toNat_append]
  rw [shiftLeft_or_eq _ _ 4 (by omega), shiftLeft_or_eq _ _ 4 (by omega)]
  omega

/-- Position `p` of a block as a number (R9). -/
theorem nib_toNat (b : Block) (p : Fin 3) : (nib b p).toNat = b.toNat / 16 ^ (2 - p.val) % 16 := by
  have := b.isLt
  fin_cases p <;> simp [nib, Nat.shiftRight_eq_div_pow]

theorem pack_getLsbD (a b c : Nibble) (i : Nat) : (pack a b c).getLsbD i =
    if i < 4 then c.getLsbD i else if i < 8 then b.getLsbD (i - 4) else a.getLsbD (i - 8) := by
  simp only [pack, BitVec.getLsbD_append]
  split
  · rfl
  · by_cases h : i < 8
    · simp [h, show i - 4 < 4 by omega]
    · simp [h, show ¬i - 4 < 4 by omega, Nat.sub_sub]

theorem nib_getLsbD_eq (b : Block) (p : Fin 3) (j : Nat) :
    (nib b p).getLsbD j = (decide (j < 4) && b.getLsbD (8 - 4 * p.val + j)) := by
  fin_cases p <;> simp [nib, BitVec.getLsbD_extractLsb']

theorem lowNibble_toNat (b : Byte) : (lowNibble b).toNat = b.toNat % 16 := by
  simp [lowNibble]

theorem dmask_zero : dmask 0x000 = 0x000 := by decide

/-! ### Fields of written words -/

theorem blockField_eq_ofNat (v : Word) : blockField v = BitVec.ofNat 12 v.toNat := by
  apply BitVec.eq_of_toNat_eq
  simp [blockField]

theorem countField_eq_ofNat (v : Word) : countField v = BitVec.ofNat 16 v.toNat := by
  apply BitVec.eq_of_toNat_eq
  simp [countField]

theorem getLsbD_eq_decide (v : Word) (n : Nat) :
    v.getLsbD n = decide (v.toNat / 2 ^ n % 2 = 1) := by
  rw [BitVec.getLsbD, Nat.testBit_eq_decide_div_mod_eq]

/-! ### Words the host reads -/

theorem zext32_toNat {n : Nat} (h : n ≤ 32) (x : BitVec n) : (zext32 x).toNat = x.toNat := by
  have : x.toNat < 2 ^ 32 := lt_of_lt_of_le x.isLt (Nat.pow_le_pow_right (by norm_num) h)
  rw [zext32, BitVec.toNat_setWidth, Nat.mod_eq_of_lt this]

theorem candWord_toNat (a b : Nibble) : (candWord a b).toNat = b.toNat * 16 + a.toNat := by
  have := a.isLt
  simp only [candWord, BitVec.toNat_append, BitVec.toNat_ofNat, Nat.zero_mod, Nat.zero_shiftLeft,
    Nat.zero_or]
  rw [shiftLeft_or_eq _ _ 4 (by omega)]
  norm_num

theorem pairWord_toNat (p : Pair) : (pairWord p).toNat = p.c1.toNat * 2 ^ 16 + p.c0.toNat := by
  have := p.c0.isLt
  have := p.c1.isLt
  simp only [pairWord, BitVec.toNat_append, BitVec.toNat_ofNat, Nat.zero_mod, Nat.zero_shiftLeft,
    Nat.zero_or]
  rw [shiftLeft_or_eq _ 0 4 (by norm_num), shiftLeft_or_eq _ _ 12 (by omega)]
  omega

end Sys2Proof.Machine
end

