-- ==== Sys2Proof/Laws/PerInstr.lean ====
section
/-! SUPPORT. Statements about every command as syntax, one lemma per constructor. -/

namespace Sys2Proof.Laws.Encoding

/-- A command is well formed, its word is a legal command word, the word decodes to it, and the word
holds its opcode alone (30_encoding.md R50, R52, R53). -/
def Statement (i : Instr) : Prop :=
  i.wf = true ∧ cmdWordOk (encode i) = true ∧ decodeWord (encode i) = some i ∧
    rsvField (encode i) = 0 ∧ decodeTableWord 32 (encode i).toNat = some i

theorem sub : Statement .sub := by simp only [Statement]; decide
theorem subi : Statement .subi := by simp only [Statement]; decide
theorem diff : Statement .diff := by simp only [Statement]; decide
theorem diffi : Statement .diffi := by simp only [Statement]; decide
theorem mix : Statement .mix := by simp only [Statement]; decide
theorem encr : Statement .encr := by simp only [Statement]; decide
theorem decr : Statement .decr := by simp only [Statement]; decide
theorem enclr : Statement .enclr := by simp only [Statement]; decide
theorem declr : Statement .declr := by simp only [Statement]; decide
theorem enc : Statement .enc := by simp only [Statement]; decide
theorem dec : Statement .dec := by simp only [Statement]; decide
theorem filt : Statement .filt := by simp only [Statement]; decide
theorem keylock : Statement .keylock := by simp only [Statement]; decide
theorem keyrand : Statement .keyrand := by simp only [Statement]; decide
theorem pairgen : Statement .pairgen := by simp only [Statement]; decide
theorem recover : Statement .recover := by simp only [Statement]; decide

end Sys2Proof.Laws.Encoding
end

