-- ==== Sys2Proof/Laws/Port.lean ====
section
/-! SUPPORT. What a host write, and then a step, can do to the engine, said once (`step_move`), so
that every statement about all steps is a case analysis on `Move`. -/

namespace Sys2Proof.Machine

/-! ### Host reads -/

/-- A read that is not of a VOLATILE address while busy returns the defined value (20_memory.md
R33, R36). -/
theorem hostRead_defined {a : Addr} {s : State}
    (h : s.eng.pend = none ∨ volatile (locate a) = false) :
    hostRead a s = (readLoc (locate a) s.eng, s) := by
  unfold hostRead
  rcases h with h | h <;> simp [h]

/-- A read of a VOLATILE address while busy returns the next draw (R36). -/
theorem hostRead_draw {a : Addr} {s : State} {i : Instr} (hp : s.eng.pend = some i)
    (hv : volatile (locate a) = true) :
    hostRead a s = (Config.draw32 s.draws, { s with draws := s.draws + 1 }) := by
  unfold hostRead
  simp [hp, hv]

/-- `STATUS` is never VOLATILE. -/
theorem hostRead_status (s : State) : hostRead 0x001 s = (statusWord s.eng, s) :=
  hostRead_defined (.inr rfl)

/-! ### Host writes -/

theorem hostWrite_busy {a : Addr} {v : Word} {s : State} {i : Instr} (h : s.eng.pend = some i) :
    hostWrite a v s = .next { s with eng := { s.eng with wdb := true } } := by
  simp [hostWrite, Engine.busy, h]

theorem hostWrite_cmd {v : Word} {s : State} (h : s.eng.pend = none) :
    hostWrite 0x000 v s = issueWord v s := by
  unfold hostWrite
  rw [Engine.busy_of_none _ h, if_neg Bool.false_ne_true, if_pos ((locate_eq_cmd _).2 rfl)]

theorem hostWrite_stored {a : Addr} {v : Word} {s : State} (h : s.eng.pend = none)
    (ha : a ≠ 0x000) : hostWrite a v s = .next { s with eng := writeLoc (locate a) v s.eng } := by
  have : locate a ≠ .cmd := fun e => ha ((locate_eq_cmd a).1 e)
  simp [hostWrite, Engine.busy, h, this]

theorem issueWord_legal {w : Word} {i : Instr} (h : decodeWord w = some i) (s : State) :
    issueWord w s = exec i s := by
  simp [issueWord, h]

theorem issueWord_faulted {w : Word} {s : State} (h : decodeWord w = none)
    (hf : s.eng.fault = true) :
    issueWord w s = .next { s with eng := { s.eng with err := .faulted } } := by
  have : issueWord w s = raise .faulted s := by simp [issueWord, h, hf]
  rw [this]
  exact raise_of_ne_nokey (c := .faulted) (by decide) s

theorem issueWord_illegal {w : Word} {s : State} (h : decodeWord w = none)
    (hf : s.eng.fault = false) :
    issueWord w s = .next { s with eng := { s.eng with err := .illegal } } := by
  have : issueWord w s = raise .illegal s := by simp [issueWord, h, hf]
  rw [this]
  exact raise_of_ne_nokey (c := .illegal) (by decide) s

/-- The registers a host write never touches: the hidden state and every result (20_memory.md
R34). -/
theorem writeLoc_frame (l : Loc) (v : Word) (e : Engine) :
    (writeLoc l v e).pend = e.pend ∧ (writeLoc l v e).rngq = e.rngq ∧
      (writeLoc l v e).keyv = e.keyv ∧ (writeLoc l v e).fault = e.fault ∧
      (writeLoc l v e).povf = e.povf ∧ (writeLoc l v e).err = e.err ∧
      (writeLoc l v e).result = e.result ∧ (writeLoc l v e).npairs = e.npairs ∧
      (writeLoc l v e).cand0 = e.cand0 ∧ (writeLoc l v e).cand1 = e.cand1 ∧
      (writeLoc l v e).cnt = e.cnt ∧ (writeLoc l v e).pbuf = e.pbuf := by
  cases l <;> first
    | exact ⟨rfl, rfl, rfl, rfl, rfl, rfl, rfl, rfl, rfl, rfl, rfl, rfl⟩
    | (simp only [writeLoc, rkWrite]
       split <;> exact ⟨rfl, rfl, rfl, rfl, rfl, rfl, rfl, rfl, rfl, rfl, rfl, rfl⟩)

/-- A host write touches the schedule only while it is not set (42_cipher.md R74). -/
theorem writeLoc_keyed (l : Loc) (v : Word) (e : Engine) (h : e.keyv = true) :
    (writeLoc l v e).rk = e.rk ∧ (writeLoc l v e).rkw = e.rkw := by
  cases l <;> first
    | exact ⟨rfl, rfl⟩
    | simp [writeLoc, rkWrite, h]

/-! ### The step -/

/-- What one step can do to the engine: the engine after it, with who moved and why. -/
inductive Move (s : State) : Engine → Prop
  /-- a read, a WAIT, an agent with no step to take -/
  | still (h : nextTurn s ≠ .reset)
      (hw : nextTurn s = .host → ∀ a v p, s.prog ≠ .write a v :: p) : Move s s.eng
  | reset (h : nextTurn s = .reset) : Move s Engine.reset
  | byte (h : nextTurn s = .rng) (b : Byte) (q : List Byte) (hr : s.rng = b :: q)
      (hw : s.eng.wantsByte = true) : Move s { s.eng with rngq := s.eng.rngq ++ [b] }
  | completion (h : nextTurn s = .engine) (i : Instr) (hp : s.eng.pend = some i)
      (hq : s.eng.rngq.length = need i s.eng) : Move s (effect i s.eng).finish
  | dropped (h : nextTurn s = .host) (a : Addr) (v : Word) (p : List HostOp)
      (hprog : s.prog = .write a v :: p) (i : Instr) (hp : s.eng.pend = some i) :
      Move s { s.eng with wdb := true }
  | faulted (h : nextTurn s = .host) (w : Word) (p : List HostOp)
      (hprog : s.prog = .write 0x000 w :: p) (hp : s.eng.pend = none) (hf : s.eng.fault = true) :
      Move s { s.eng with err := .faulted }
  | illegal (h : nextTurn s = .host) (w : Word) (p : List HostOp)
      (hprog : s.prog = .write 0x000 w :: p) (hp : s.eng.pend = none) (hf : s.eng.fault = false)
      (hw : decodeWord w = none) : Move s { s.eng with err := .illegal }
  | rejected (h : nextTurn s = .host) (w : Word) (p : List HostOp)
      (hprog : s.prog = .write 0x000 w :: p) (hp : s.eng.pend = none) (hf : s.eng.fault = false)
      (i : Instr) (hw : decodeWord w = some i) (c : ErrKind)
      (hc : keyError (keyRule i) s.eng = some c) :
      Move s { s.eng with err := c, fault := decide (c = .nokey) }
  | accepted (h : nextTurn s = .host) (w : Word) (p : List HostOp)
      (hprog : s.prog = .write 0x000 w :: p) (hp : s.eng.pend = none) (hf : s.eng.fault = false)
      (i : Instr) (hw : decodeWord w = some i) (hc : keyError (keyRule i) s.eng = none) :
      Move s { s.eng with err := .ok, pend := some i }
  | stored (h : nextTurn s = .host) (a : Addr) (v : Word) (p : List HostOp)
      (hprog : s.prog = .write a v :: p) (ha : a ≠ 0x000) (hp : s.eng.pend = none) :
      Move s (writeLoc (locate a) v s.eng)

theorem step_eq (s : State) :
    step s = takeTurn (nextTurn s) { s with turns := s.turns.tail } := rfl

/-- Everything a step can do to the engine. -/
theorem step_move {s t : State} (h : step s = .next t) : Move s t.eng := by
  rw [step_eq] at h
  cases hn : nextTurn s with
  | reset =>
    rw [hn] at h
    cases h
    exact .reset hn
  | rng =>
    rw [hn] at h
    simp only [takeTurn, rngTurn] at h
    split at h
    · cases h; exact .still (by simp [hn]) (by simp [hn])
    · rename_i b q hr
      split at h
      · rename_i hw
        cases h
        exact .byte hn b q hr hw
      · cases h; exact .still (by simp [hn]) (by simp [hn])
  | engine =>
    rw [hn] at h
    simp only [takeTurn, engineTurn] at h
    split at h
    · rename_i i hp
      have hp' : ({ s with turns := s.turns.tail } : State).eng.pend = some i := hp
      by_cases hq : s.eng.rngq.length = need i s.eng
      · rw [exec_completes hp' hq] at h
        cases h
        exact .completion hn i hp hq
      · rw [exec_waits hp' (.inr hq)] at h
        cases h
        exact .still (by simp [hn]) (by simp [hn])
    · cases h; exact .still (by simp [hn]) (by simp [hn])
  | host =>
    rw [hn] at h
    simp only [takeTurn, hostTurn] at h
    split at h
    · rename_i hprog
      cases h
      exact .still (by simp [hn]) (by simp [hprog])
    · rename_i hprog
      cases h
      simpa using Move.still (s := s) (by simp [hn]) (by simp [hprog])
    · rename_i a v p hprog
      cases hp : s.eng.pend with
      | some i =>
        have hp' : ({ s with prog := p, turns := s.turns.tail } : State).eng.pend = some i := hp
        rw [hostWrite_busy hp'] at h
        cases h
        exact .dropped hn a v p hprog i hp
      | none =>
        have hp' : ({ s with prog := p, turns := s.turns.tail } : State).eng.pend = none := hp
        by_cases ha : a = 0x000
        · subst ha
          rw [hostWrite_cmd hp'] at h
          cases hw : decodeWord v with
          | none =>
            cases hf : s.eng.fault with
            | true =>
              have hf' : ({ s with prog := p, turns := s.turns.tail } : State).eng.fault = true := hf
              rw [issueWord_faulted hw hf'] at h
              cases h
              exact .faulted hn v p hprog hp hf
            | false =>
              have hf' : ({ s with prog := p, turns := s.turns.tail } : State).eng.fault = false := hf
              rw [issueWord_illegal hw hf'] at h
              cases h
              exact .illegal hn v p hprog hp hf hw
          | some i =>
            rw [issueWord_legal hw] at h
            rcases exec_cases h with ⟨_, hne⟩ | ⟨hs, _, _⟩ | ⟨_, hf, rfl⟩ | ⟨_, hf, c, hc, rfl⟩ |
              ⟨_, hf, hc, rfl⟩
            · exact absurd hp hne
            · exact absurd (hp.symm.trans hs) (by simp)
            · exact .faulted hn v p hprog hp hf
            · exact .rejected hn v p hprog hp hf i hw c hc
            · exact .accepted hn v p hprog hp hf i hw hc
        · rw [hostWrite_stored hp' ha] at h
          cases h
          exact .stored hn a v p hprog ha hp
    · rename_i hprog
      split at h
      · cases h; simpa using Move.still (s := s) (by simp [hn]) (by simp [hprog])
      · cases h; simpa using Move.still (s := s) (by simp [hn]) (by simp [hprog])

/-- A host write touches nothing outside the engine. -/
theorem hostWrite_env {a : Addr} {v : Word} {s t : State} (h : hostWrite a v s = .next t) :
    t.prog = s.prog ∧ t.turns = s.turns ∧ t.rng = s.rng ∧ t.rdata = s.rdata ∧ t.draws = s.draws := by
  cases hp : s.eng.pend with
  | some i =>
    rw [hostWrite_busy hp] at h
    cases h
    exact ⟨rfl, rfl, rfl, rfl, rfl⟩
  | none =>
    by_cases ha : a = 0x000
    · subst ha
      rw [hostWrite_cmd hp] at h
      cases hw : decodeWord v with
      | none =>
        cases hf : s.eng.fault with
        | true => rw [issueWord_faulted hw hf] at h; cases h; exact ⟨rfl, rfl, rfl, rfl, rfl⟩
        | false => rw [issueWord_illegal hw hf] at h; cases h; exact ⟨rfl, rfl, rfl, rfl, rfl⟩
      | some i =>
        rw [issueWord_legal hw] at h
        rcases exec_cases h with ⟨rfl, _⟩ | ⟨_, _, rfl⟩ | ⟨_, _, rfl⟩ | ⟨_, _, _, _, rfl⟩ |
          ⟨_, _, _, rfl⟩ <;> exact ⟨rfl, rfl, rfl, rfl, rfl⟩
    · rw [hostWrite_stored hp ha] at h
      cases h
      exact ⟨rfl, rfl, rfl, rfl, rfl⟩

/-- The turn list after a step, and the RNG's stream unless a byte was delivered. -/
theorem step_env {s t : State} (h : step s = .next t) :
    t.turns = s.turns.tail ∧ (t.rng = s.rng ∨ ∃ b, s.rng = b :: t.rng) := by
  rw [step_eq] at h
  cases hn : nextTurn s with
  | reset => rw [hn] at h; cases h; exact ⟨rfl, .inl rfl⟩
  | rng =>
    rw [hn] at h
    simp only [takeTurn, rngTurn] at h
    split at h
    · cases h; exact ⟨rfl, .inl rfl⟩
    · rename_i b q hr
      split at h
      · cases h; exact ⟨rfl, .inr ⟨b, hr⟩⟩
      · cases h; exact ⟨rfl, .inl rfl⟩
  | engine =>
    rw [hn] at h
    simp only [takeTurn, engineTurn] at h
    split at h
    · rcases exec_cases h with ⟨rfl, _⟩ | ⟨_, _, rfl⟩ | ⟨_, _, rfl⟩ | ⟨_, _, _, _, rfl⟩ |
        ⟨_, _, _, rfl⟩ <;> exact ⟨rfl, .inl rfl⟩
    · cases h; exact ⟨rfl, .inl rfl⟩
  | host =>
    rw [hn] at h
    simp only [takeTurn, hostTurn] at h
    split at h
    · cases h; exact ⟨rfl, .inl rfl⟩
    · cases h; exact ⟨by simp, .inl (by simp)⟩
    · obtain ⟨_, ht, hr, _, _⟩ := hostWrite_env h
      exact ⟨ht, .inl hr⟩
    · split at h
      · cases h; exact ⟨by simp, .inl (by simp)⟩
      · cases h; exact ⟨by simp, .inl (by simp)⟩

/-! ### The turn order and the placing of a command -/

theorem nextTurn_cons {s : State} {u : Turn} {ts : List Turn} (h : s.turns = u :: ts) :
    nextTurn s = u := by
  simp [nextTurn, h]

/-- With no turn listed and no command pending, the host moves. -/
theorem nextTurn_default_idle {s : State} (h : s.turns = []) (hp : s.eng.pend = none) :
    nextTurn s = .host := by
  simp [nextTurn, h, defaultTurn, Engine.ready, Engine.wantsByte, hp]

/-- With no turn listed and a command ready, the engine moves. -/
theorem nextTurn_default_ready {s : State} {i : Instr} (h : s.turns = []) (hp : s.eng.pend = some i)
    (hq : s.eng.rngq.length = need i s.eng) : nextTurn s = .engine := by
  simp [nextTurn, h, defaultTurn, Engine.ready, hp, hq]

/-- A placed command word of a command is what the very next step runs. -/
theorem step_withFetchWord (s : State) (w : Word) (i : Instr) (h : decodeWord w = some i) :
    step (s.withFetchWord 32 w.toNat) = exec i { s with eng := s.eng.finish } := by
  have hn : nextTurn (s.withFetchWord 32 w.toNat) = .host := rfl
  rw [step_eq, hn]
  simp only [State.withFetchWord, tableWord_32, placeCommand, takeTurn, hostTurn, List.tail_cons]
  have hp : ({ s with eng := s.eng.finish } : State).eng.pend = none := rfl
  exact (hostWrite_cmd hp).trans (issueWord_legal h _)

end Sys2Proof.Machine
end

