-- ==== Sys2Proof/Laws/Tables.lean ====
section
/-! SUPPORT. The tables of this build undo each other, and the two readings of the difference
distribution table: the loops of 43_tables.md R82 and counts over one nibble. -/

namespace Sys2Proof.Machine

theorem sinv_sbox : ∀ x : Nibble, nget sinv (nget sbox x) = x := by decide

theorem sbox_sinv : ∀ x : Nibble, nget sbox (nget sinv x) = x := by decide

theorem sinv_injective {x y : Nibble} (h : nget sinv x = nget sinv y) : x = y := by
  rw [← sbox_sinv x, ← sbox_sinv y, h]

@[simp] theorem substitute_sinv_sbox (b : Block) : substitute sinv (substitute sbox b) = b := by
  apply block_ext <;> simp [sinv_sbox]

@[simp] theorem substitute_sbox_sinv (b : Block) : substitute sbox (substitute sinv b) = b := by
  apply block_ext <;> simp [sbox_sinv]

/-! ### Tables as functions -/

theorem nget_set {α : Type} (t : Vector α 16) (x y : Nibble) (a : α) :
    nget (t.set x.toNat a x.isLt) y = if x = y then a else nget t y := by
  simp only [nget, Vector.getElem_set]
  by_cases h : x = y
  · subst h
    simp
  · have : x.toNat ≠ y.toNat := fun e => h (BitVec.eq_of_toNat_eq e)
    simp [h, this]

theorem toList_eq_map_nget (t : Vector Nibble 16) : t.toList = nibbles.map (nget t) := by
  apply List.ext_getElem
  · simp [nibbles]
  · intro n h1 _
    have hn : n < 16 := by simpa using h1
    simp only [Vector.getElem_toList, List.getElem_map]
    interval_cases n <;> rfl

theorem all_nibbles (P : Nibble → Bool) : nibbles.all P = true ↔ ∀ x, P x = true := by
  rw [List.all_eq_true]
  exact ⟨fun h x => h x (mem_nibbles x), fun h x _ => h x⟩

/-! ### The difference distribution table -/

theorem mem_nibblePairs (p : Nibble × Nibble) : p ∈ nibblePairs := by
  simp [nibblePairs, mem_nibbles]

/-- One increment of R82, cell by cell. -/
theorem nget_bumpCell (t : Vector Nibble 16) (m : Vector (Vector Nat 16) 16) (p : Nibble × Nibble)
    (i o : Nibble) : nget (nget (bumpCell t m p) i) o = nget (nget m i) o +
      if (p.1 ^^^ p.2 == i && nget t p.1 ^^^ nget t p.2 == o) = true then 1 else 0 := by
  simp only [bumpCell, nget_set]
  by_cases h1 : p.1 ^^^ p.2 = i
  · rw [if_pos h1, nget_set]
    by_cases h2 : nget t p.1 ^^^ nget t p.2 = o
    · rw [if_pos h2, if_pos (by simp [h1, h2]), h1, h2]
    · simp [h1, h2]
  · simp [h1]

/-- Input and output difference determine the second nibble of a pair. -/
theorem xor_eq_iff (x y i : Nibble) : x ^^^ y = i ↔ y = x ^^^ i := by
  constructor
  · rintro rfl
    rw [← BitVec.xor_assoc]
    simp
  · rintro rfl
    rw [← BitVec.xor_assoc]
    simp

/-- A column of pairs with a fixed first nibble holds at most one pair of a given cell. -/
theorem countP_column (t : Vector Nibble 16) (i o x : Nibble) :
    (nibbles.map fun y => (x, y)).countP (fun p : Nibble × Nibble =>
      p.1 ^^^ p.2 == i && nget t p.1 ^^^ nget t p.2 == o) =
    if (nget t x ^^^ nget t (x ^^^ i) == o) = true then 1 else 0 := by
  rw [List.countP_map]
  have h : ∀ y ∈ nibbles, ((fun p : Nibble × Nibble =>
      p.1 ^^^ p.2 == i && nget t p.1 ^^^ nget t p.2 == o) ∘ fun y => (x, y)) y = true ↔
      (fun y => y == (x ^^^ i) && (nget t x ^^^ nget t (x ^^^ i) == o)) y = true := by
    intro y _
    simp only [Function.comp, Bool.and_eq_true, beq_iff_eq, xor_eq_iff x y i]
    constructor <;> (rintro ⟨rfl, h⟩; exact ⟨rfl, h⟩)
  rw [List.countP_congr h]
  by_cases hb : (nget t x ^^^ nget t (x ^^^ i) == o) = true
  · simp only [hb, Bool.and_true, if_true]
    exact List.count_eq_one_of_mem nibbles_nodup (mem_nibbles _)
  · simp [hb]

theorem sum_map_ite (l : List Nibble) (P : Nibble → Bool) :
    (l.map fun x => if P x = true then 1 else 0).sum = l.countP P := by
  induction l with
  | nil => rfl
  | cons x l ih => rw [List.map_cons, List.sum_cons, ih, List.countP_cons, Nat.add_comm]

/-- A cell of the table as a count over the first nibble alone. -/
theorem ddtEntry_eq_countP (t : Vector Nibble 16) (i o : Nibble) :
    ddtEntry t i o = nibbles.countP fun x => nget t x ^^^ nget t (x ^^^ i) == o := by
  unfold ddtEntry nibblePairs
  rw [List.countP_flatMap, ← sum_map_ite]
  congr 1
  apply List.map_congr_left
  intro x _
  exact countP_column t i o x

theorem ddtEntry_le (t : Vector Nibble 16) (i o : Nibble) : ddtEntry t i o ≤ 16 := by
  rw [ddtEntry_eq_countP]
  exact List.countP_le_length

end Sys2Proof.Machine
end

