-- ==== Sys2Proof/Tests/Slice0.lean ====
section
/-! SUPPORT. Tests of the model's own work, each on one step or one operation with the expected value
taken from the spec (mostly 95_test_vectors.md), and a witness for the hypotheses of every statement
of Certificates/Slice0/Obligations.lean that has any. -/

namespace Sys2Proof.Tests

open Sys2Proof.Machine Sys2Proof.Spec

/-! ### Helpers -/

/-- A part of the state an outcome goes on with. -/
def next? {α : Type} (o : Host.Outcome State Fault Refusal) (f : State → α) : Option α :=
  match o with
  | .next s => some (f s)
  | _ => none

/-- The reason of a refusal. -/
def refusal? (o : Host.Outcome State Fault Refusal) : Option Refusal :=
  match o with
  | .refused r => some r
  | _ => none

/-- The machine after reset with the engine `e`. -/
def withEng (e : Engine) : State := { State.reset with eng := e }

/-- The engine after reset with `OPA`, `OPB` and `FMASK` written. -/
def operands (a b m : Block) : Engine := { Engine.reset with opa := a, opb := b, fmask := m }

/-- The schedule of 95_test_vectors.md L2.3, locked. -/
def keyed : Engine :=
  { Engine.reset with rk := #v[0x123, 0x456, 0x789, 0xABC], rkw := 0b1111, keyv := true }

/-- The engine whose command `i` is pending with the bytes `q` delivered. -/
def pending (i : Instr) (q : List Byte) (e : Engine) : Engine := { e with pend := some i, rngq := q }

/-- `RESULT` after the completion of a command that takes no bytes. -/
def resultOf (i : Instr) (e : Engine) : Option Block :=
  next? (exec i (withEng (pending i [] e))) fun s => s.eng.result

/-- `STATUS` after a host write, from engine `e`. -/
def statusAfter (a : Addr) (v : Word) (e : Engine) : Option Word :=
  next? (hostWrite a v (withEng e)) fun s => statusWord s.eng

/-- The first twelve bytes of the reference stream (95_test_vectors.md). -/
def stream12 : List Byte :=
  [0x29, 0x72, 0xBB, 0x04, 0x4D, 0x96, 0xDF, 0x28, 0x71, 0xBA, 0x03, 0x4C]

/-- A pending PAIRGEN of two samples: `IDIFF = 200`, `FMASK = F00`, bytes 0 to 5 (L2.6). -/
def pairgen2 : Engine :=
  pending .pairgen (stream12.take 6) { keyed with idiff := 0x200, fmask := 0xF00, nsamp := 2 }

/-! ### WellFormed: each check refuses an ill-formed term -/

theorem test_cmdWordOk_refuses_opcode_zero : cmdWordOk 0x00000000 = false := by decide
theorem test_cmdWordOk_refuses_opcode_above : cmdWordOk 0x00000011 = false := by decide
theorem test_cmdWordOk_refuses_reserved_bit : cmdWordOk 0x00000021 = false := by decide
theorem test_cmdWordOk_takes_last : cmdWordOk 0x00000010 = true := by decide
theorem test_locWf_refuses_mapped_address : (Loc.unmapped 0x000).wf = false := by decide
theorem test_locWf_takes_hole : (Loc.unmapped 0x00C).wf = true := by decide

/-- `SBOX` with entry 0 repeated at entry 1: no permutation. -/
theorem test_sboxWf_refuses_repeat :
    SboxPair.wf ⟨sbox.set 1 6, sinv⟩ = false := by decide

/-- The right `SBOX` with a wrong inverse. -/
theorem test_sboxWf_refuses_wrong_inverse :
    SboxPair.wf ⟨sbox, sbox⟩ = false := by decide

theorem test_sboxWf_takes_build : SboxPair.wf ⟨sbox, sinv⟩ = true := by decide

/-- The identity pair is admitted by R17 and is another hardware (92_eei_decisions.md D6). -/
theorem test_construct_other :
    refusal? (construct ⟨tabulate id, tabulate id⟩) = some .otherInstance := by decide

/-! ### Decode: the words of 30_encoding.md R50 and R52, bit by bit -/

theorem test_decode_sub : decodeWord 0b00000000000000000000000000000001 = some .sub := by decide
theorem test_decode_subi : decodeWord 0b00000000000000000000000000000010 = some .subi := by decide
theorem test_decode_diff : decodeWord 0b00000000000000000000000000000011 = some .diff := by decide
theorem test_decode_diffi : decodeWord 0b00000000000000000000000000000100 = some .diffi := by decide
theorem test_decode_mix : decodeWord 0b00000000000000000000000000000101 = some .mix := by decide
theorem test_decode_encr : decodeWord 0b00000000000000000000000000000110 = some .encr := by decide
theorem test_decode_decr : decodeWord 0b00000000000000000000000000000111 = some .decr := by decide
theorem test_decode_enclr : decodeWord 0b00000000000000000000000000001000 = some .enclr := by decide
theorem test_decode_declr : decodeWord 0b00000000000000000000000000001001 = some .declr := by decide
theorem test_decode_enc : decodeWord 0b00000000000000000000000000001010 = some .enc := by decide
theorem test_decode_dec : decodeWord 0b00000000000000000000000000001011 = some .dec := by decide
theorem test_decode_filt : decodeWord 0b00000000000000000000000000001100 = some .filt := by decide
theorem test_decode_keylock :
    decodeWord 0b00000000000000000000000000001101 = some .keylock := by decide
theorem test_decode_keyrand :
    decodeWord 0b00000000000000000000000000001110 = some .keyrand := by decide
theorem test_decode_pairgen :
    decodeWord 0b00000000000000000000000000001111 = some .pairgen := by decide
theorem test_decode_recover :
    decodeWord 0b00000000000000000000000000010000 = some .recover := by decide
theorem test_decode_reserved :
    decodeWord 0b00000000000000000000000000010001 = none ∧
      decodeWord 0b10000000000000000000000000000001 = none := by decide

/-! ### Commands: the vectors of 95_test_vectors.md L2.1 to L2.7 -/

theorem test_sub : resultOf .sub (operands 0x123 0 0) = some 0x7BC := by decide
theorem test_subi : resultOf .subi (operands 0x123 0 0) = some 0xCDA := by decide
theorem test_diff : resultOf .diff (operands 0x8F7 0 0) = some 0xD1F := by decide
theorem test_diffi : resultOf .diffi (operands 0x8F7 0 0) = some 0xB4F := by decide
theorem test_mix : resultOf .mix (operands 0x123 0xABC 0) = some 0xB9F := by decide
theorem test_encr : resultOf .encr (operands 0x123 0x456 0) = some 0x3AE := by decide
theorem test_decr : resultOf .decr (operands 0x123 0x456 0) = some 0xCAE := by decide
theorem test_enclr : resultOf .enclr (operands 0x123 0x456 0) = some 0x3EA := by decide
theorem test_declr : resultOf .declr (operands 0x49D 0xABC 0) = some 0x8DC := by decide
theorem test_enc : resultOf .enc { keyed with opa := 0x5A3 } = some 0x836 := by decide
theorem test_dec : resultOf .dec { keyed with opa := 0x5A3 } = some 0xCEC := by decide
theorem test_filt : resultOf .filt (operands 0x001 0 0xFFF) = some 0x001 := by decide
theorem test_filt_bitwise : resultOf .filt (operands 0x700 0 0x800) = some 0x000 := by decide

theorem test_keylock :
    statusAfter 0x000 0x0000000D { Engine.reset with rkw := 0b1111 } = some 0x003D ∧
      next? (exec .keylock (withEng (pending .keylock [] { Engine.reset with rkw := 0b1111 })))
        (fun s => statusWord s.eng) = some 0x003E := by decide

theorem test_keyrand :
    next? (exec .keyrand (withEng (pending .keyrand stream12 Engine.reset)))
      (fun s => (s.eng.rk, statusWord s.eng)) =
      some (#v[0x92B, 0x4D6, 0xF81, 0xA3C], 0x003E) := by decide

theorem test_pairgen :
    next? (exec .pairgen (withEng pairgen2))
      (fun s => (s.eng.npairs, pairWord (s.eng.pbuf.read 0), pairWord (s.eng.pbuf.read 1),
        pairWord (s.eng.pbuf.read 2))) =
      some (2, 0x0CCE067C, 0x0C330433, 0x00000000) := by decide

theorem test_recover_no_samples :
    next? (exec .recover (withEng (pending .recover [] { keyed with
      cand0 := 3, npairs := 7, idiff := 0x200, tdiff := 0x800, kmask := 0xF00 })))
      (fun s => (s.eng.npairs, s.eng.cand0, s.eng.cand1)) = some (0, 0, 0) := by decide +kernel

/-- Program P3: bytes 12 to 59 under the schedule that bytes 0 to 11 give. -/
theorem test_recover :
    next? (exec .recover (withEng (pending .recover
        ((List.range 48).map fun i => BitVec.ofNat 8 (73 * (i + 12) + 41))
        { keyed with rk := #v[0x92B, 0x4D6, 0xF81, 0xA3C], idiff := 0x200, tdiff := 0x800,
                     kmask := 0xF00, nsamp := 16 })))
      (fun s => (s.eng.npairs, candWord s.eng.cand0 s.eng.cand1, s.eng.cnt)) =
      some (0x000F, 0x0000008A, #v[1, 1, 1, 0, 0, 0, 0, 0, 2, 0, 4, 1, 0, 0, 0, 0]) := by
  decide +kernel

/-- The last row of L2.8. -/
theorem test_select :
    selectTop2 #v[0, 0, 4, 0, 0, 4, 0, 4, 4, 0, 16, 8, 0, 4, 0, 4] = (0xA, 0xB) := by decide +kernel

/-- L2.8: equal maxima go to the smallest index. -/
theorem test_select_tie :
    selectTop2 #v[0, 3, 3, 0, 0, 0, 0, 0, 0, 0, 0, 0, 0, 0, 0, 0] = (1, 2) := by decide +kernel

/-! ### Issue, errors and the port: the rows of 95_test_vectors.md L2.4 and L2.9 -/

theorem test_status_illegal : statusAfter 0x000 0x00000021 Engine.reset = some 0x1000 := by decide
theorem test_status_nokey : statusAfter 0x000 0x0000000A Engine.reset = some 0x2040 := by decide
theorem test_status_busy : statusAfter 0x000 0x00000009 Engine.reset = some 0x0001 := by decide
theorem test_status_keypart :
    statusAfter 0x000 0x0000000D { Engine.reset with rkw := 0b0001 } = some 0x4004 := by decide
theorem test_status_keyset : statusAfter 0x000 0x0000000E keyed = some 0x303E := by decide
theorem test_status_faulted_outranks :
    statusAfter 0x000 0x00000000 { Engine.reset with fault := true, err := .nokey } =
      some 0x5040 := by decide
theorem test_status_wdl : statusAfter 0x020 0x000 keyed = some 0x013E := by decide
theorem test_status_faulted_key_write :
    statusAfter 0x021 0x456 { Engine.reset with fault := true, err := .nokey } =
      some 0x2048 := by decide
theorem test_status_wdb :
    statusAfter 0x002 0x005 (pending .keyrand [] Engine.reset) = some 0x0081 := by decide
theorem test_status_clear :
    statusAfter 0x001 0x180 { Engine.reset with wdb := true, wdl := true } = some 0x0000 := by decide
theorem test_read_ddt : (hostRead 0x14F State.reset).1 = 0x00000008 := by decide +kernel
theorem test_read_pxt : (hostRead 0x22A State.reset).1 = 0x00000008 := by decide +kernel
theorem test_read_sinvt : (hostRead 0x046 State.reset).1 = 0x00000000 := by decide
theorem test_read_cand :
    (hostRead 0x00B (withEng { keyed with cand0 := 0xA, cand1 := 0xB })).1 = 0x000000BA := by decide
theorem test_read_round_key : (hostRead 0x020 (withEng keyed)).1 = 0x00000000 := by decide

/-! ### Reset and the placing of a command -/

theorem test_reset_memory_wf : State.reset.eng.pbuf.wf = true := by decide

theorem test_placed_word_is_issued :
    next? (step (State.reset.withFetchWord 32 0x0000000C)) (fun s => s.eng.pend) =
      some (some .filt) := by decide

/-! ### The Memory check refuses each departure from the canonical form -/

theorem test_memoryWf_refuses_order :
    Memory.wf [(1, ⟨0x001, 0x002⟩), (0, ⟨0x001, 0x002⟩)] = false := by decide
theorem test_memoryWf_refuses_zero_pair : Memory.wf [(0, ⟨0x000, 0x000⟩)] = false := by decide
theorem test_memoryWf_refuses_entry_2048 : Memory.wf [(2048, ⟨0x001, 0x002⟩)] = false := by decide

/-! ### Witnesses: for every statement with hypotheses, states and operands that meet them together,
clause by clause -/

/-- The engine after reset with the fatal fault (95_test_vectors.md L2.9, `0x2040`). -/
def faulted : Engine := { Engine.reset with fault := true, err := .nokey }

/-- The machine after reset about to perform one host transaction. -/
def about (op : HostOp) (e : Engine) : State := { withEng e with prog := [op] }

/-- Command `i` pending with all its bytes (`NSAMP = 0`). -/
def full (i : Instr) (e : Engine) : Engine :=
  pending i (if i = .keyrand then stream12 else []) e

theorem witness_IllegalWordsRecordIllegal :
    decodeWord 0x00000000 = none ∧ decodeWord 0x00000011 = none ∧ decodeWord 0x0000001F = none ∧
      decodeWord 0x00000021 = none ∧ decodeWord 0x00000010 ≠ none ∧
      Idle State.reset ∧ State.reset.eng.fault = false :=
  ⟨by decide, by decide, by decide, by decide, by decide, rfl, rfl⟩

/-- A legal command word, another write to an idle and to a busy engine, a read, a WAIT, the end of the
program, an RNG turn and an engine turn. -/
theorem witness_StepRunsWrittenCommand :
    (let s := about (.write 0x000 0x00000010) keyed;
      nextTurn s = .host ∧ s.prog = [.write 0x000 0x00000010] ∧ Idle s ∧
        decodeWord 0x00000010 = some .recover) ∧
    nextTurn (about (.write 0x000 0x00000011) keyed) = .host ∧
    nextTurn (about (.write 0xFFF 0x001) (pending .keyrand [] Engine.reset)) = .host ∧
    nextTurn (about (.read 0x009) keyed) = .host ∧ nextTurn (about .wait keyed) = .host ∧
    (nextTurn State.reset = .host ∧ State.reset.prog = []) ∧
    nextTurn { withEng (pending .keyrand [] Engine.reset) with rng := [0x29] } = .rng ∧
    nextTurn (withEng (full .keyrand Engine.reset)) = .engine :=
  ⟨⟨rfl, rfl, rfl, by decide⟩, rfl, by decide, rfl, rfl, ⟨rfl, rfl⟩, by decide, by decide⟩

theorem witness_StepRunsPendingCommand :
    let s := withEng (full .keyrand Engine.reset)
    nextTurn s = .engine ∧ s.eng.pend = some .keyrand := ⟨by decide, rfl⟩

theorem witness_ResetAbandonsEverythingAndAloneClears :
    nextTurn { withEng (pending .enc [] keyed) with turns := [.reset] } = .reset ∧
      (∃ t, step (withEng faulted) = .next t) ∧ nextTurn (withEng faulted) ≠ .reset ∧
      (withEng faulted).eng.fault = true ∧
      (∃ t, step (withEng keyed) = .next t) ∧ nextTurn (withEng keyed) ≠ .reset ∧
      (withEng keyed).eng.keyv = true :=
  ⟨rfl, ⟨_, rfl⟩, by decide, rfl, ⟨_, rfl⟩, by decide, rfl⟩

/-- Where the ranges of the address map meet (20_memory.md R32, R36): each range's first and last
address is in it, and the addresses beside them are not. -/
theorem witness_address_ranges :
    (VolatileAddr 0x009 ∧ VolatileAddr 0x00B ∧ VolatileAddr 0x010 ∧ VolatileAddr 0x01F ∧
      VolatileAddr 0x800 ∧ VolatileAddr 0xFFF) ∧
    (¬VolatileAddr 0x008 ∧ ¬VolatileAddr 0x00C ∧ ¬VolatileAddr 0x00F ∧ ¬VolatileAddr 0x020 ∧
      ¬VolatileAddr 0x7FF) ∧
    (UnmappedAddr 0x00C ∧ UnmappedAddr 0x00F ∧ UnmappedAddr 0x024 ∧ UnmappedAddr 0x02F ∧
      UnmappedAddr 0x050 ∧ UnmappedAddr 0x0FF ∧ UnmappedAddr 0x300 ∧ UnmappedAddr 0x7FF) ∧
    (¬UnmappedAddr 0x00B ∧ ¬UnmappedAddr 0x010 ∧ ¬UnmappedAddr 0x023 ∧ ¬UnmappedAddr 0x030 ∧
      ¬UnmappedAddr 0x04F ∧ ¬UnmappedAddr 0x100 ∧ ¬UnmappedAddr 0x2FF ∧ ¬UnmappedAddr 0x800) ∧
    (ReadOnlyAddr 0x009 ∧ ReadOnlyAddr 0x030 ∧ ReadOnlyAddr 0x04F ∧ ReadOnlyAddr 0x100 ∧
      ReadOnlyAddr 0x2FF ∧ ReadOnlyAddr 0xFFF ∧ ¬ReadOnlyAddr 0x008 ∧ ¬ReadOnlyAddr 0x020) := by
  simp [ReadOnlyAddr, VolatileAddr, UnmappedAddr]

/-- One state for the busy clause and one for the rest; the address clauses at their bounds. -/
theorem witness_HostReadReturnsTheMappedWord :
    (withEng (pending .sub [] keyed)).eng.busy = true ∧ VolatileAddr 0x009 ∧
      ¬((withEng keyed).eng.busy = true ∧ VolatileAddr 0x009) ∧
      (0x020 ≤ (0x020 : Addr).toNat ∧ (0x023 : Addr).toNat ≤ 0x023) ∧
      (0x01F : Addr).toNat = 0x010 + (0xF : Nibble).toNat ∧
      (0x03F : Addr).toNat = 0x030 + (0xF : Nibble).toNat ∧
      (0x040 : Addr).toNat = 0x040 + (0x0 : Nibble).toNat ∧
      (0x1FF : Addr).toNat = 0x100 + 16 * (0xF : Nibble).toNat + (0xF : Nibble).toNat ∧
      (0x200 : Addr).toNat = 0x200 + 16 * (0x0 : Nibble).toNat + (0x0 : Nibble).toNat ∧
      (0xFFF : Addr).toNat = 0x800 + 2047 := by
  unfold VolatileAddr
  decide

theorem witness_BusyReadsOfResultsAreDraws :
    (withEng (pending .sub [] keyed)).eng.busy = true ∧ VolatileAddr 0x800 ∧ ¬VolatileAddr 0x7FF := by
  unfold VolatileAddr
  decide

theorem witness_HostWriteStoresByAddress :
    (withEng (pending .sub [] keyed)).eng.busy = true ∧ (withEng keyed).eng.busy = false ∧
      (0x023 : Addr).toNat = 0x020 + (3 : BitVec 2).toNat ∧ ReadOnlyAddr 0x009 ∧
      UnmappedAddr 0x024 := by
  unfold ReadOnlyAddr VolatileAddr UnmappedAddr
  decide

theorem witness_WriteThenReadGivesTheField :
    Idle State.reset ∧ (0x002 ≤ (0x002 : Addr).toNat ∧ (0x007 : Addr).toNat ≤ 0x007) ∧
      (0x008 : Addr).toNat = 0x008 := ⟨rfl, by decide, rfl⟩

theorem witness_RoundKeyWriteIsTakenUntilLocked :
    Idle (withEng keyed) ∧ (withEng keyed).eng.keyv = true ∧ Idle State.reset ∧
      State.reset.eng.keyv = false ∧ (0x020 : Addr).toNat = 0x020 + (0 : Fin 4).val ∧
      (0x023 : Addr).toNat = 0x020 + (3 : Fin 4).val := ⟨rfl, rfl, rfl, rfl, rfl, rfl⟩

theorem witness_HostReadsDoNotDependOnRoundKeys :
    Idle (withEng keyed) ∧ ¬Idle (withEng (pending .sub [] keyed)) ∧ ¬VolatileAddr 0x020 := by
  refine ⟨rfl, by unfold Idle; decide, by unfold VolatileAddr; decide⟩

theorem witness_IssueChecksInOrder :
    Idle (withEng faulted) ∧ Idle (withEng keyed) ∧ ¬Idle (withEng (pending .sub [] keyed)) :=
  ⟨rfl, rfl, by unfold Idle; decide⟩

theorem witness_ErrChangesOnlyAtCmdWrites :
    let s := withEng (full .sub Engine.reset)
    let u := about (.write 0x000 0x00000001) Engine.reset
    ((∃ t, step s = .next t) ∧ nextTurn s ≠ .reset ∧ ∀ w, ¬NextWriteTaken 0x000 w s) ∧
      (∃ t, step u = .next t) ∧ NextWriteTaken 0x000 0x00000001 u :=
  ⟨⟨⟨_, rfl⟩, by decide, fun _ h => absurd h.1 (by decide)⟩, ⟨_, rfl⟩, rfl, ⟨_, rfl⟩, rfl⟩

theorem witness_FaultIsFatalUntilReset :
    (Instr.enc ∈ [Instr.enc, .dec, .pairgen, .recover] ∧ Idle State.reset ∧
      State.reset.eng.fault = false ∧ State.reset.eng.keyv = false) ∧
    (Idle (withEng faulted) ∧ (withEng faulted).eng.fault = true) ∧ (0x001 : Addr) ≠ 0x000 ∧
    (0x000 : Addr) ≠ 0x001 ∧
    ((∃ t, step (withEng faulted) = .next t) ∧ nextTurn (withEng faulted) ≠ .reset) :=
  ⟨⟨by decide, rfl, rfl, rfl⟩, ⟨rfl, rfl⟩, by decide, by decide, ⟨_, rfl⟩, by decide⟩

theorem witness_WriteFlagsStayUntilCleared :
    let s := about (.write 0x001 0x000) { Engine.reset with wdb := true, wdl := true }
    (∃ t, step s = .next t) ∧ nextTurn s ≠ .reset ∧ s.eng.wdb = true ∧ s.eng.wdl = true ∧
      ∀ v, NextWriteTaken 0x001 v s → v.toNat / 2 ^ 7 % 2 = 0 ∧ v.toNat / 2 ^ 8 % 2 = 0 := by
  refine ⟨⟨_, rfl⟩, by decide, rfl, rfl, fun v h => ?_⟩
  obtain ⟨p, hp⟩ := h.2.1
  have : v = 0x000 := by
    simp only [about, List.cons.injEq, HostOp.write.injEq] at hp
    exact hp.1.2.symm
  subst this
  decide

theorem witness_CompletionIsTheEnginesOnlyStep :
    Idle State.reset ∧
    ((withEng (pending .keyrand [] Engine.reset)).eng.pend = some .keyrand ∧
      (withEng (pending .keyrand [] Engine.reset)).eng.rngq.length ≠ need .keyrand Engine.reset) ∧
    ((withEng (full .keyrand Engine.reset)).eng.pend = some .keyrand ∧
      (withEng (full .keyrand Engine.reset)).eng.rngq.length = need .keyrand Engine.reset) ∧
    (∃ t, exec .sub State.reset = .next t ∧ t.eng.busy = true) ∧
    ∃ t, exec .enc State.reset = .next t ∧ t.eng.busy = false ∧ t.eng.err = .nokey :=
  ⟨rfl, ⟨rfl, by decide⟩, ⟨rfl, by decide⟩, ⟨_, rfl, rfl⟩, _, rfl, rfl, rfl⟩

theorem witness_RngDeliversOnlyWantedBytes :
    let s (e : Engine) : State := { withEng e with rng := [0x29] }
    (s (pending .keyrand (stream12.take 11) Engine.reset)).eng.rngq.length < need .keyrand Engine.reset ∧
    need .keyrand Engine.reset ≤ (s (full .keyrand Engine.reset)).eng.rngq.length ∧
    Idle (s Engine.reset) ∧ (s Engine.reset).rng = [0x29] := ⟨by decide, by decide, rfl, rfl⟩

theorem witness_StalledCommandStaysBusy :
    let s := withEng (pending .keyrand [] Engine.reset)
    s.eng.pend = some .keyrand ∧ s.eng.rngq.length < need .keyrand s.eng ∧ s.rng = [] ∧
      Turn.reset ∉ s.turns := ⟨rfl, by decide, rfl, by decide⟩

/-- For every address and word; the address clauses at their bounds. -/
theorem witness_WriteBeforeCompletionIsDroppedAfterItIsTaken :
    (∀ (a : Addr) (v : Word),
      let s := about (.write a v) (full .keyrand Engine.reset)
      s.eng.pend = some .keyrand ∧ s.eng.rngq.length = need .keyrand s.eng ∧
        s.prog = [.write a v]) ∧
    (0x020 : Addr).toNat = 0x020 + (0 : BitVec 2).toNat ∧
    (0x023 : Addr).toNat = 0x020 + (3 : BitVec 2).toNat ∧ ReadOnlyAddr 0xFFF ∧
    UnmappedAddr 0x7FF := by
  refine ⟨fun a v => ⟨rfl, rfl, rfl⟩, rfl, rfl, ?_, ?_⟩
  · simp [ReadOnlyAddr, VolatileAddr]
  · simp [UnmappedAddr]

theorem witness_OperandsStableWhileBusy :
    let s := about (.write 0x002 0x005) (pending .keyrand [] Engine.reset)
    s.eng.pend = some .keyrand ∧ ∃ t, step s = .next t ∧ t.eng.pend = some .keyrand :=
  ⟨rfl, _, rfl, rfl⟩

theorem witness_PseudoInstructionsExpand :
    (about .wait Engine.reset).prog = [.wait] ∧
      (hostRead 0x001 (about .wait Engine.reset)).1.toNat % 2 = 0 ∧
      (hostRead 0x001 (about .wait (pending .sub [] Engine.reset))).1.toNat % 2 = 1 := by decide

theorem witness_SinvIsTheUniqueInverse : ∀ x : Nibble, nget sinv (nget sbox x) = x := by decide

theorem witness_DiffusionMovesPackedBits : (0 : Nat) < 11 ∧ (10 : Nat) < 11 := by decide

/-- What the three clauses of `ResultCommand i` ask: idle with the fault, idle without it, and `i`
pending. -/
def ResultHyps (i : Instr) : Prop :=
  (Idle (withEng faulted) ∧ (withEng faulted).eng.fault = true) ∧
    (Idle State.reset ∧ State.reset.eng.fault = false) ∧
    ((withEng (pending i [] Engine.reset)).eng.pend = some i ∧
      (withEng (pending i [] Engine.reset)).eng.rngq = [])

theorem resultHyps (i : Instr) : ResultHyps i := ⟨⟨rfl, rfl⟩, ⟨rfl, rfl⟩, rfl, rfl⟩

theorem witness_SubCommand : ResultHyps .sub := resultHyps _
theorem witness_SubiCommand : ResultHyps .subi := resultHyps _
theorem witness_DiffCommand : ResultHyps .diff := resultHyps _
theorem witness_DiffiCommand : ResultHyps .diffi := resultHyps _
theorem witness_MixCommand : ResultHyps .mix := resultHyps _
theorem witness_EncrCommand : ResultHyps .encr := resultHyps _
theorem witness_DecrCommand : ResultHyps .decr := resultHyps _
theorem witness_EnclrCommand : ResultHyps .enclr := resultHyps _
theorem witness_DeclrCommand : ResultHyps .declr := resultHyps _

theorem witness_FiltCommand :
    ResultHyps .filt ∧ (0xFFF : Block) ≠ 0x000 := ⟨resultHyps _, by decide⟩

/-- What the clauses of a command that needs the schedule ask: the fault, no key, a key, and the
command pending with its bytes. -/
def KeyedHyps (i : Instr) : Prop :=
  (Idle (withEng faulted) ∧ (withEng faulted).eng.fault = true) ∧
    (Idle State.reset ∧ State.reset.eng.fault = false ∧ State.reset.eng.keyv = false) ∧
    (Idle (withEng keyed) ∧ (withEng keyed).eng.fault = false ∧ (withEng keyed).eng.keyv = true) ∧
    ((withEng (pending i [] keyed)).eng.pend = some i ∧
      (withEng (pending i [] keyed)).eng.rngq = [])

theorem keyedHyps (i : Instr) : KeyedHyps i :=
  ⟨⟨rfl, rfl⟩, ⟨rfl, rfl, rfl⟩, ⟨rfl, rfl, rfl⟩, rfl, rfl⟩

theorem witness_EncCommand : KeyedHyps .enc := keyedHyps _
theorem witness_DecCommand : KeyedHyps .dec := keyedHyps _

theorem witness_PairgenCommand :
    KeyedHyps .pairgen ∧ pairgen2.pend = some .pairgen ∧
      pairgen2.rngq.length = 3 * pairgen2.nsamp.toNat := ⟨keyedHyps _, rfl, by decide⟩

theorem witness_RecoverCommand :
    let e := pending .recover (stream12.take 3) { keyed with nsamp := 1 }
    KeyedHyps .recover ∧ e.pend = some .recover ∧ e.rngq.length = 3 * e.nsamp.toNat :=
  ⟨keyedHyps _, rfl, by decide⟩

theorem witness_KeylockCommand :
    let written := withEng { Engine.reset with rkw := 0b1111 }
    (Idle (withEng faulted) ∧ (withEng faulted).eng.fault = true) ∧
    (Idle (withEng keyed) ∧ (withEng keyed).eng.fault = false ∧ (withEng keyed).eng.keyv = true) ∧
    (Idle State.reset ∧ State.reset.eng.fault = false ∧ State.reset.eng.keyv = false ∧
      State.reset.eng.rkw ≠ 0b1111) ∧
    (Idle written ∧ written.eng.fault = false ∧ written.eng.keyv = false ∧
      written.eng.rkw = 0b1111) ∧
    ((withEng (full .keylock Engine.reset)).eng.pend = some .keylock ∧
      (withEng (full .keylock Engine.reset)).eng.rngq = []) :=
  ⟨⟨rfl, rfl⟩, ⟨rfl, rfl, rfl⟩, ⟨rfl, rfl, rfl, by decide⟩, ⟨rfl, rfl, rfl, rfl⟩, rfl, rfl⟩

theorem witness_KeyrandCommand :
    (Idle (withEng faulted) ∧ (withEng faulted).eng.fault = true) ∧
    (Idle (withEng keyed) ∧ (withEng keyed).eng.fault = false ∧ (withEng keyed).eng.keyv = true) ∧
    (Idle State.reset ∧ State.reset.eng.fault = false ∧ State.reset.eng.keyv = false) ∧
    ((withEng (full .keyrand Engine.reset)).eng.pend = some .keyrand ∧
      (withEng (full .keyrand Engine.reset)).eng.rngq.length = 12) ∧
    (withEng (pending .keyrand (stream12.take 11) Engine.reset)).eng.rngq.length < 12 :=
  ⟨⟨rfl, rfl⟩, ⟨rfl, rfl, rfl⟩, ⟨rfl, rfl, rfl⟩, ⟨rfl, rfl⟩, by decide⟩

/-- The locked engine meets the invariant. -/
theorem keyed_inv : keyed.Inv where
  idle_queue _ := rfl
  queue_le := nofun
  pending_ok := nofun
  pending_keyed := nofun
  pending_unkeyed := nofun
  pending_lock := nofun
  keyed_written _ := rfl
  fault_unkeyed := nofun
  fault_err := by decide
  pbuf_wf := rfl
  pbuf_differ := nofun
  cand_of_cnt := by decide +kernel

theorem witness_KeyScheduleImmutableOnceSet :
    let s := about (.write 0x020 0xFFF) keyed
    MachineInv s ∧ s.eng.keyv = true ∧ nextTurn s ≠ .reset ∧ ∃ t, step s = .next t :=
  ⟨keyed_inv, rfl, by decide, _, rfl⟩

theorem witness_DdtInvariantsOfPermutations :
    (∀ x y : Nibble, nget sbox x = nget sbox y → x = y) ∧ (0xF : Nibble) ≠ 0 := by decide

theorem witness_TableWindowsReadTheTables :
    Idle State.reset ∧ (0x100 : Addr).toNat = 0x100 + 16 * (0x0 : Nibble).toNat + (0x0 : Nibble).toNat ∧
      (0x2FF : Addr).toNat = 0x200 + 16 * (0xF : Nibble).toNat + (0xF : Nibble).toNat ∧
      (0x030 : Addr).toNat = 0x030 + (0x0 : Nibble).toNat ∧
      (0x04F : Addr).toNat = 0x040 + (0xF : Nibble).toNat := ⟨rfl, rfl, rfl, rfl, rfl⟩

theorem witness_BadConfigurationsAreRefused :
    ¬((∀ x, nget sbox (nget sbox x) = x) ∧ ∀ x, nget sbox (nget sbox x) = x) ∧
    (∀ x : Nibble, nget (tabulate id) (nget (tabulate id) x) = x) ∧
    (⟨tabulate id, tabulate id⟩ : SboxPair) ≠ ⟨sbox, sinv⟩ := by decide

theorem witness_GeneratePairsFiltersTheSamples : stream12.length = 3 * 4 := rfl

theorem witness_CountersCountMatchingPairs :
    ([⟨0x67C, 0xCCE⟩] : List Pair).length ≤ 65535 ∧
      (∀ p : Fin 3, nib 0x800 p ≠ 0 → nib 0xF00 p = nib 0xF35 p) ∧
      nib 0x800 1 = 0 ∧ nib 0x800 2 = 0 := by decide

theorem witness_SelectionTakesFirstMaxima :
    let c : Vector Count 16 := #v[0, 3, 3, 0, 0, 0, 0, 0, 0, 0, 0, 0, 0, 0, 0, 0]
    let w : Vector Count 16 := #v[0, 0, 3, 0, 0, 0, 0, 0, 0, 0, 0, 0, 0, 0, 0, 0]
    let e := pending .recover (stream12.take 3) { keyed with nsamp := 1 }
    (nget w 1 = 0 ∧ ∀ k, k ≠ 1 → nget w k = nget c k) ∧
      e.pend = some .recover ∧ e.rngq.length = 3 * e.nsamp.toNat :=
  ⟨by decide, rfl, by decide⟩

theorem witness_RecoverDegenerateCases : (0xFFFF : Count) ≠ 0 := by decide

theorem witness_FilterDoesNotChangeTheCounters : (0x001 : Block) ≠ 0x000 := by decide

/-- Every command completes somewhere. -/
theorem witness_CommandsWriteOnlyTheirColumn (i : Instr) :
    ∃ t, exec i (withEng (full i keyed)) = .next t ∧ t.eng.busy = false := by
  have h : (full i keyed).rngq.length = need i (full i keyed) := by cases i <;> rfl
  exact ⟨_, exec_completes (s := withEng (full i keyed)) rfl h, rfl⟩

theorem witness_EveryStepKeepsTheInvariant :
    MachineInv (withEng keyed) ∧ ∃ t, step (withEng keyed) = .next t := ⟨keyed_inv, _, rfl⟩

end Sys2Proof.Tests
end

section
/-! The tables of this build: `SINV` is the one table that undoes `SBOX` (10_state.md R16). -/

namespace Sys2Proof.Machine

theorem sinv_toNat : ∀ x : Nibble, (nget sinv x).toNat = Spec.sinvTable.getD x.toNat 0 := by decide

/-- A left inverse of `SBOX` agrees with its right inverse: every nibble is `SBOX` of its `SINV`. -/
theorem eq_sinv_of_undoes_sbox {t : Vector Nibble 16} (ht : ∀ x, nget t (nget sbox x) = x) :
    t = sinv :=
  table_ext fun x => calc
    nget t x = nget t (nget sbox (nget sinv x)) := by rw [sbox_sinv]
    _ = nget sinv x := ht (nget sinv x)

/-- Settles O26, from the two round trips of the tables and the uniqueness of a left inverse. -/
theorem sinvIsTheUniqueInverse : Obligations.SinvIsTheUniqueInverse :=
  ⟨sinv_sbox, sbox_sinv, sinv_toNat, fun _ => eq_sinv_of_undoes_sbox⟩

end Sys2Proof.Machine
end

section
/-! The host port address by address: what each place reads as and what a write to it stores
(20_memory.md R33, R34; 10_state.md R28). -/

namespace Sys2Proof.Machine

open Sys2Proof.Spec

/-! ### The map -/

theorem locate_of_toNat_eq {a : Addr} {n : Nat} (h : a.toNat = n) (hn : n < 0x00C) :
    locate a = locateLow n := by
  subst h
  exact locate_low a hn

theorem unmappedRange_iff (a : Addr) : unmappedRange a = true ↔ UnmappedAddr a := by
  simp only [unmappedRange, UnmappedAddr, Bool.or_eq_true, Bool.and_eq_true, decide_eq_true_eq,
    or_assoc]

theorem locate_of_unmappedAddr {a : Addr} (h : UnmappedAddr a) : locate a = .unmapped a :=
  locate_unmapped a ((unmappedRange_iff a).2 h)

/-- The model's VOLATILE places are the addresses that 20_memory.md R36 lists. -/
theorem volatile_locate_iff (a : Addr) : volatile (locate a) = true ↔ VolatileAddr a := by
  unfold VolatileAddr
  rcases locate_cases a with ⟨hl, e⟩ | ⟨hu, e⟩ | ⟨k, h, e⟩ | ⟨r, h, e⟩ | ⟨x, h, e⟩ | ⟨x, h, e⟩ |
    ⟨i, o, h, e⟩ | ⟨i, j, h, e⟩ | ⟨n, h, e⟩ <;> rw [e]
  case inl =>
    generalize a.toNat = n at hl
    interval_cases n <;> simp [locateLow, volatile]
  case inr.inl =>
    have hu := (unmappedRange_iff a).1 hu
    unfold UnmappedAddr at hu
    simp only [volatile, Bool.false_eq_true, false_iff]
    omega
  all_goals
    simp only [volatile, Bool.false_eq_true, false_iff, true_iff]
    omega

/-! ### Reads -/

theorem errCode_toNat (c : ErrKind) : (errCode c).toNat = errNumber c := by cases c <;> rfl

/-- The fields of `STATUS`, each at its weight (10_state.md R27). -/
theorem statusWord_toNat (e : Engine) : (statusWord e).toNat = statusNumber e := by
  have hb (b : Bool) : b.toNat < 2 ^ 1 := b.toNat_lt
  have hk := e.rkw.isLt
  simp only [statusWord, BitVec.toNat_append, BitVec.toNat_ofBool, BitVec.toNat_ofNat, Nat.zero_mod,
    Nat.zero_shiftLeft, Nat.zero_or, errCode_toNat]
  rw [shiftLeft_or_eq _ _ 1 (hb _), shiftLeft_or_eq _ _ 1 (hb _), shiftLeft_or_eq _ _ 4 hk,
    shiftLeft_or_eq _ _ 1 (hb _), shiftLeft_or_eq _ _ 1 (hb _), shiftLeft_or_eq _ _ 1 (hb _),
    shiftLeft_or_eq _ _ 1 (hb _), shiftLeft_or_eq _ _ 2 (by decide)]
  unfold statusNumber
  omega

section
variable {a : Addr} {s : State} {l : Loc}

/-- A read whose value is specified returns what its place holds. -/
theorem hostRead_at (hd : ¬(s.eng.busy = true ∧ VolatileAddr a)) (hl : locate a = l) :
    (hostRead a s).1 = readLoc l s.eng := by
  subst hl
  rw [← volatile_locate_iff] at hd
  rw [hostRead_defined]
  rcases hp : s.eng.pend with _ | i
  · exact .inl rfl
  · exact .inr (Bool.eq_false_iff.2 fun hv => hd ⟨Engine.busy_of_some _ i hp, hv⟩)

/-- A read of a place that holds a register of `n` bits returns the register, zero-extended. -/
theorem hostRead_field {n : Nat} {x : BitVec n} (hn : n ≤ 32)
    (hd : ¬(s.eng.busy = true ∧ VolatileAddr a)) (hl : locate a = l)
    (hx : readLoc l s.eng = zext32 x) : (hostRead a s).1.toNat = x.toNat := by
  rw [hostRead_at hd hl, hx, zext32_toNat hn]

/-- CMD and the round keys cannot be read, and unmapped addresses hold nothing. -/
theorem hostRead_unreadable (hd : ¬(s.eng.busy = true ∧ VolatileAddr a))
    (h : a.toNat = 0x000 ∨ (0x020 ≤ a.toNat ∧ a.toNat ≤ 0x023) ∨ UnmappedAddr a) :
    (hostRead a s).1.toNat = 0 := by
  rcases h with h | ⟨hlo, hhi⟩ | h
  · rw [hostRead_at hd (locate_of_toNat_eq h (by decide))]
    rfl
  · have hr : a.toNat = 0x020 + (BitVec.ofNat 2 (a.toNat - 0x020)).toNat := by
      rw [BitVec.toNat_ofNat]
      omega
    rw [hostRead_at hd (locate_rk a _ hr)]
    rfl
  · rw [hostRead_at hd (locate_of_unmappedAddr h)]
    rfl

theorem hostRead_ddt (i o : Nibble) (hd : ¬(s.eng.busy = true ∧ VolatileAddr a))
    (h : a.toNat = 0x100 + 16 * i.toNat + o.toNat) :
    (hostRead a s).1.toNat = ddtEntry sbox i o := by
  have hle := ddtEntry_le sbox i o
  rw [hostRead_at hd (locate_ddt a i o h), readLoc, BitVec.toNat_ofNat,
    Nat.mod_eq_of_lt (by omega)]

theorem hostRead_pbuf {n : Nat} (hd : ¬(s.eng.busy = true ∧ VolatileAddr a)) (hn : n < 2048)
    (h : a.toNat = 0x800 + n) :
    (hostRead a s).1.toNat =
      (s.eng.pbuf.read n).c1.toNat * 2 ^ 16 + (s.eng.pbuf.read n).c0.toNat := by
  have he : (BitVec.ofNat 11 n).toNat = n := by rw [BitVec.toNat_ofNat, Nat.mod_eq_of_lt hn]
  rw [hostRead_at hd (locate_pbuf a (BitVec.ofNat 11 n) (by rw [he, h])), readLoc, pairWord_toNat,
    he]

end

/-- Settles O9: each address is located on the map, and its place read as a number. -/
theorem hostReadReturnsTheMappedWord : Obligations.HostReadReturnsTheMappedWord := by
  intro s a
  refine ⟨hostRead_eng a s, fun hb hv => ?_, fun hd => ?_⟩
  · obtain ⟨i, hp⟩ := (Engine.busy_eq_true _).1 hb
    rw [hostRead_draw hp ((volatile_locate_iff a).2 hv)]
  have register {n m : Nat} {x : BitVec n} (hn : n ≤ 32) (hm : m < 0x00C)
      (hx : readLoc (locateLow m) s.eng = zext32 x) (h : a.toNat = m) :
      (hostRead a s).1.toNat = x.toNat :=
    hostRead_field hn hd (locate_of_toNat_eq h hm) hx
  refine ⟨hostRead_unreadable hd, fun h => ?status, register (by decide) (by decide) rfl,
    register (by decide) (by decide) rfl, register (by decide) (by decide) rfl,
    register (by decide) (by decide) rfl, register (by decide) (by decide) rfl,
    register (by decide) (by decide) rfl, register (by decide) (by decide) rfl,
    register (by decide) (by decide) rfl, register (by decide) (by decide) rfl, fun h => ?cand,
    fun k h => hostRead_field (by decide) hd (locate_cnt a k h) rfl,
    fun x h => hostRead_field (by decide) hd (locate_sboxt a x h) rfl,
    fun x h => hostRead_field (by decide) hd (locate_sinvt a x h) rfl,
    fun i o => hostRead_ddt i o hd,
    fun i j h => hostRead_field (by decide) hd (locate_pxt a i j h) rfl,
    fun n => hostRead_pbuf hd⟩
  case status =>
    rw [hostRead_at hd (locate_of_toNat_eq h (by decide))]
    exact statusWord_toNat s.eng
  case cand =>
    rw [hostRead_at hd (locate_of_toNat_eq h (by decide))]
    exact candWord_toNat s.eng.cand0 s.eng.cand1

/-! ### Writes -/

/-- A write to `STATUS` in numbers: bit 7 clears WDB, bit 8 clears WDL (R28). -/
theorem statusWrite_eq (v : Word) (e : Engine) :
    statusWrite v e = { e with
      wdb := if v.toNat / 2 ^ 7 % 2 = 1 then false else e.wdb
      wdl := if v.toNat / 2 ^ 8 % 2 = 1 then false else e.wdl } := by
  have clear (b : Bool) (k : Nat) :
      (b && !v.getLsbD k) = if v.toNat / 2 ^ k % 2 = 1 then false else b := by
    rw [getLsbD_eq_decide]
    split <;> simp [*]
  rw [statusWrite, clear, clear]

/-- What a write to an idle engine stores at a place other than CMD. -/
theorem hostWrite_at {a : Addr} {v : Word} {s : State} {l : Loc} (hb : s.eng.busy = false)
    (hl : locate a = l) (hc : l ≠ .cmd) :
    hostWrite a v s = .next { s with eng := writeLoc l v s.eng } := by
  subst hl
  exact hostWrite_stored ((Engine.busy_eq_false _).1 hb) fun h => hc ((locate_eq_cmd a).2 h)

/-- Every place a write leaves alone: the results, the counters, the tables, the buffer and the
holes of the map. -/
theorem writeLoc_of_readOnly {a : Addr} (h : ReadOnlyAddr a ∨ UnmappedAddr a) :
    locate a ≠ .cmd ∧ ∀ v e, writeLoc (locate a) v e = e := by
  unfold ReadOnlyAddr VolatileAddr UnmappedAddr at h
  rcases locate_cases a with ⟨hl, e⟩ | ⟨-, e⟩ | ⟨k, -, e⟩ | ⟨r, hr, e⟩ | ⟨x, -, e⟩ | ⟨x, -, e⟩ |
    ⟨i, o, -, e⟩ | ⟨i, j, -, e⟩ | ⟨n, -, e⟩ <;> rw [e]
  case inl =>
    have hlow : 0x009 ≤ a.toNat := by omega
    clear h e
    generalize a.toNat = n at hl hlow
    interval_cases n <;> exact ⟨nofun, fun _ _ => rfl⟩
  case inr.inr.inr.inl =>
    have := r.isLt
    omega
  all_goals exact ⟨nofun, fun _ _ => rfl⟩

/-- Settles O11: each address is located on the map, and the field it stores read as a number. -/
theorem hostWriteStoresByAddress : Obligations.HostWriteStoresByAddress := by
  intro s a v
  refine ⟨fun hb => ?_, fun hb => ?_⟩
  · obtain ⟨i, hp⟩ := (Engine.busy_eq_true _).1 hb
    exact hostWrite_busy hp
  simp only [← blockField_eq_ofNat, ← countField_eq_ofNat, ← statusWrite_eq]
  have register {m : Nat} (hm : m < 0x00C) (hc : locateLow m ≠ .cmd) (h : a.toNat = m) :
      hostWrite a v s = .next { s with eng := writeLoc (locateLow m) v s.eng } :=
    hostWrite_at hb (locate_of_toNat_eq h hm) hc
  refine ⟨fun h => ?cmd, register (by decide) nofun, register (by decide) nofun,
    register (by decide) nofun, register (by decide) nofun, register (by decide) nofun,
    register (by decide) nofun, register (by decide) nofun, register (by decide) nofun,
    fun r h => hostWrite_at hb (locate_rk a r h) nofun, fun h => ?readOnly⟩
  case cmd =>
    obtain rfl : a = 0x000 := BitVec.eq_of_toNat_eq h
    exact hostWrite_cmd ((Engine.busy_eq_false _).1 hb)
  case readOnly =>
    obtain ⟨hc, hw⟩ := writeLoc_of_readOnly h
    rw [hostWrite_at hb rfl hc, hw]

end Sys2Proof.Machine
end

section
/-! Command words and their issue: which words are illegal (30_encoding.md R53), and the checks of a
CMD write in the order of R54. -/

namespace Sys2Proof.Machine

open Sys2Proof.Spec

/-! ### Legal and illegal words -/

/-- The reserved opcodes (R53). -/
theorem decodeOp_eq_none_iff :
    ∀ op : BitVec 5, decodeOp op = none ↔ op.toNat = 0x00 ∨ 0x11 ≤ op.toNat := by decide

/-- The opcode map of R52, read against the column "word". -/
theorem encode_toNat_of_mem_decodeOp :
    ∀ op : BitVec 5, ∀ i ∈ decodeOp op, (encode i).toNat = op.toNat := by decide

theorem decodeWord_eq_none_iff (w : Word) : decodeWord w = none ↔
    (w.toNat % 32 = 0x00 ∨ (0x11 ≤ w.toNat % 32 ∧ w.toNat % 32 ≤ 0x1F) ∨ w.toNat / 32 ≠ 0) := by
  rcases Nat.lt_or_ge w.toNat 32 with h | h
  · rw [decodeWord_of_lt w h, decodeOp_eq_none_iff, opField_toNat]
    omega
  · exact iff_of_true (decodeWord_of_ge w h) (.inr (.inr (by omega)))

/-- A word decodes to no command but the one it encodes. -/
theorem eq_encode_of_decodeWord {w : Word} {i : Instr} (h : decodeWord w = some i) :
    w = encode i := by
  rcases Nat.lt_or_ge w.toNat 32 with hw | hw
  · rw [decodeWord_of_lt w hw] at h
    apply BitVec.eq_of_toNat_eq
    rw [encode_toNat_of_mem_decodeOp _ i h, opField_toNat, Nat.mod_eq_of_lt hw]
  · rw [decodeWord_of_ge w hw] at h
    cases h

/-- Settles O3: the reserved opcodes are read off the opcode map, and the issue of an illegal word
is the model's own rule. -/
theorem illegalWordsRecordIllegal : Obligations.IllegalWordsRecordIllegal :=
  ⟨decodeWord_eq_none_iff, fun _ _ hw hidle hf =>
    (hostWrite_cmd hidle).trans (issueWord_illegal hw hf)⟩

/-! ### The checks of `Issue`

R54 names the commands a check is for by their opcodes; these are the rows of column "key" of R52. -/

theorem encode_requires_key (i : Instr) :
    (encode i).toNat ∈ [0x0A, 0x0B, 0x0F, 0x10] ↔ keyRule i = .required := by
  cases i <;> decide

theorem encode_sets_key (i : Instr) :
    (encode i).toNat ∈ [0x0D, 0x0E] ↔ keyRule i = .unset ∨ keyRule i = .lockable := by
  cases i <;> decide

theorem encode_locks_key (i : Instr) : (encode i).toNat = 0x0D ↔ keyRule i = .lockable := by
  cases i <;> decide

theorem encode_legal (i : Instr) : ¬((encode i).toNat / 32 ≠ 0 ∨ (encode i).toNat % 32 < 0x01 ∨
    0x10 < (encode i).toNat % 32) := by
  cases i <;> decide

theorem decodeWord_encode (i : Instr) : decodeWord (encode i) = some i := by
  cases i <;> decide

theorem issued_faulted {w : Word} {e : Engine} (hf : e.fault = true) :
    issued w e = { e with err := .faulted } := if_pos hf

theorem issued_illegal {w : Word} {e : Engine} (hw : decodeWord w = none)
    (hf : e.fault = false) : issued w e = { e with err := .illegal } := by
  rw [decodeWord_eq_none_iff] at hw
  rw [issued, if_neg (by simp [hf]), if_pos (by omega)]

/-- The checks for a legal word, by the command's row in column "key". -/
theorem issued_encode (i : Instr) {e : Engine} (hf : e.fault = false) : issued (encode i) e =
    if keyRule i = .required ∧ e.keyv = false then { e with err := .nokey, fault := true }
    else if (keyRule i = .unset ∨ keyRule i = .lockable) ∧ e.keyv = true then
      { e with err := .keyset }
    else if keyRule i = .lockable ∧ e.rkw ≠ 0b1111 then { e with err := .keypart }
    else { e with err := .ok, pend := some i } := by
  rw [issued, if_neg (by simp [hf]), if_neg (encode_legal i)]
  simp only [encode_requires_key, encode_sets_key, encode_locks_key, decodeWord_encode]

/-- A command's issue is `Issue` of its word (R54). -/
theorem issue_eq_issued (i : Instr) (s : State) :
    issue i (keyRule i) s = .next { s with eng := issued (encode i) s.eng } := by
  cases hf : s.eng.fault with
  | true => rw [issue_faulted hf, issued_faulted hf]
  | false =>
    rw [issued_encode i hf]
    cases hk : keyError (keyRule i) s.eng with
    | none =>
      obtain ⟨hreq, hunset, hlock⟩ := keyError_none hk
      rw [issue_accepted hf hk]
      cases hr : keyRule i <;> simp [*]
    | some c =>
      rw [issue_rejected hf hk]
      rcases keyError_cases hk with ⟨rfl, hr, hv⟩ | ⟨rfl, hr, hv⟩ | ⟨rfl, hr, hv, hrkw⟩
      · simp [raise_nokey, hr, hv]
      · simp [raise_of_ne_nokey, hr, hv]
      · simpa [raise_of_ne_nokey, hr, hv] using hrkw

/-- `Issue(w)` of the model is that of R54, for every word. -/
theorem issueWord_eq_issued (w : Word) {s : State} (hidle : s.eng.pend = none) :
    issueWord w s = .next { s with eng := issued w s.eng } := by
  cases hw : decodeWord w with
  | some i =>
    rw [issueWord_legal hw, exec_idle hidle, issue_eq_issued, ← eq_encode_of_decodeWord hw]
  | none =>
    cases hf : s.eng.fault with
    | true => rw [issueWord_faulted hw hf, issued_faulted hf]
    | false => rw [issueWord_illegal hw hf, issued_illegal hw hf]

/-- Settles O15: a CMD write while idle is `Issue`, and while busy it is dropped. -/
theorem issueChecksInOrder : Obligations.IssueChecksInOrder := by
  intro s w
  refine ⟨fun hidle => ?_, fun hbusy => ?_⟩
  · rw [hostWrite_cmd hidle, issueWord_eq_issued w hidle]
  · obtain ⟨i, hp⟩ := Option.ne_none_iff_exists'.1 hbusy
    exact hostWrite_busy hp

end Sys2Proof.Machine
end

section
/-! The layers: substitution as numbers (40_layers.md R58), diffusion as a move of packed bits (R61 (b)),
and the commands SUB, SUBI, DIFF, DIFFI, MIX (R62 to R66). -/

namespace Sys2Proof.Machine

open Sys2Proof.Spec

/-! ### Substitution as numbers -/

theorem pack_eq_packNat (a b c : Nibble) : pack a b c = packNat a.toNat b.toNat c.toNat := by
  apply BitVec.eq_of_toNat_eq
  rw [pack_toNat, packNat, BitVec.toNat_ofNat, Nat.mod_eq_of_lt (by omega)]

theorem sbox_toNat : ∀ x : Nibble, (nget sbox x).toNat = sboxTable.getD x.toNat 0 := by decide

/-- Substitution through a table whose entries are listed as numbers (R58). -/
theorem substitute_eq_packNat {t : Vector Nibble 16} {l : List Nat}
    (ht : ∀ x, (nget t x).toNat = l.getD x.toNat 0) (b : Block) : substitute t b =
      packNat (l.getD (pos b 0) 0) (l.getD (pos b 1) 0) (l.getD (pos b 2) 0) := by
  have hentry (p : Fin 3) : (nget t (nib b p)).toNat = l.getD (pos b p) 0 := by
    rw [ht, nib_toNat, pos]
  rw [substitute, pack_eq_packNat, hentry, hentry, hentry]
  rfl

/-- Settles O25: the two tables of the build are the listed ones. -/
theorem substituteActsNibbleByNibble : Obligations.SubstituteActsNibbleByNibble :=
  ⟨substitute_eq_packNat sbox_toNat, substitute_eq_packNat sinv_toNat⟩

/-! ### Diffusion as a move of packed bits -/

/-- Bit `i` of a block moves to bit `2·i mod 11` (R61 (b)): of the masked terms that R59 sums there,
the mask of one alone lets a bit through. -/
theorem diffuse_getLsbD (b : Block) {i : Nat} (hi : i < 11) :
    (diffuse b).getLsbD (2 * i % 11) = b.getLsbD i := by
  interval_cases i <;>
    simp [diffuse, pack_getLsbD, nib_getLsbD_eq, -BitVec.getLsbD_eq_getElem]

theorem diffuse_getLsbD_eleven (b : Block) : (diffuse b).getLsbD 11 = b.getLsbD 11 := by
  simp [diffuse, pack_getLsbD, nib_getLsbD_eq, -BitVec.getLsbD_eq_getElem]

/-- Back, bit `i` moves to bit `6·i mod 11` (R61 (b)). -/
theorem inverseDiffuse_getLsbD (b : Block) {i : Nat} (hi : i < 11) :
    (inverseDiffuse b).getLsbD (6 * i % 11) = b.getLsbD i := by
  interval_cases i <;>
    simp [inverseDiffuse, pack_getLsbD, nib_getLsbD_eq, -BitVec.getLsbD_eq_getElem]

theorem inverseDiffuse_getLsbD_eleven (b : Block) :
    (inverseDiffuse b).getLsbD 11 = b.getLsbD 11 := by
  simp [inverseDiffuse, pack_getLsbD, nib_getLsbD_eq, -BitVec.getLsbD_eq_getElem]

/-- The round trip of R60: 6 and 2 are inverse to each other modulo 11. -/
theorem inverseDiffuse_diffuse (b : Block) : inverseDiffuse (diffuse b) = b := by
  apply BitVec.eq_of_getLsbD_eq
  intro i hi
  rcases Nat.lt_or_ge i 11 with h | h
  · have hback : 6 * (2 * i % 11) % 11 = i := by omega
    calc (inverseDiffuse (diffuse b)).getLsbD i
        = (inverseDiffuse (diffuse b)).getLsbD (6 * (2 * i % 11) % 11) := by rw [hback]
      _ = (diffuse b).getLsbD (2 * i % 11) := inverseDiffuse_getLsbD _ (by omega)
      _ = b.getLsbD i := diffuse_getLsbD b h
  · obtain rfl : i = 11 := by omega
    rw [inverseDiffuse_getLsbD_eleven, diffuse_getLsbD_eleven]

/-! ### Commands that write RESULT alone -/

/-- A command whose row of R52 asks for no key and no RNG bytes and which writes RESULT alone. -/
theorem resultCommand {i : Instr} {f : Engine → Block} (hkey : keyRule i = .free)
    (hneed : ∀ e, need i e = 0) (heffect : ∀ e, effect i e = { e with result := f e }) :
    ResultCommand i (encode i) f := by
  refine ⟨rfl, decodeWord_encode i, fun s hidle hf => ?_, fun s hidle hf => ?_, fun s hp hq => ?_⟩
  · exact (exec_idle hidle).trans (issue_faulted hf)
  · exact (exec_idle hidle).trans (issue_accepted hf (by rw [hkey]; rfl))
  · rw [Completes, exec_completes hp (by rw [hq, hneed]; rfl), heffect]
    rfl

/-- Settles O29: SUB writes RESULT alone. -/
theorem subCommand : Obligations.SubCommand :=
  ⟨resultCommand rfl (fun _ => rfl) (fun _ => rfl), by decide, by decide, by decide⟩

/-- Settles O30: SUBI writes RESULT alone, and the tables undo each other. -/
theorem subiCommand : Obligations.SubiCommand :=
  ⟨resultCommand rfl (fun _ => rfl) (fun _ => rfl), by decide, by decide, by decide,
    substitute_sinv_sbox⟩

/-- Settles O31: DIFF writes RESULT alone. -/
theorem diffCommand : Obligations.DiffCommand :=
  ⟨resultCommand rfl (fun _ => rfl) (fun _ => rfl), by decide, by decide, by decide, by decide,
    by decide⟩

/-- Settles O32: DIFFI writes RESULT alone, and undoes DIFF bit by bit. -/
theorem diffiCommand : Obligations.DiffiCommand :=
  ⟨resultCommand rfl (fun _ => rfl) (fun _ => rfl), by decide, by decide, by decide, by decide,
    by decide, inverseDiffuse_diffuse⟩

/-- Settles O33: MIX writes RESULT alone. -/
theorem mixCommand : Obligations.MixCommand :=
  ⟨resultCommand rfl (fun _ => rfl) (fun _ => rfl), fun _ => BitVec.xor_self,
    fun _ => BitVec.xor_zero, by decide⟩

end Sys2Proof.Machine
end

section
/-! The rounds: each decryption round undoes its encryption round (41_rounds.md R68), and the commands
ENCR, DECR, ENCLR, DECLR (R69 to R72). -/

namespace Sys2Proof.Machine

/-! ### Round trips -/

/-- A key mixed in twice cancels, and what is left is undone layer by layer. -/
theorem decryptRound_encryptRound (b rk : Block) : decryptRound (encryptRound b rk) rk = b := by
  rw [decryptRound, encryptRound, BitVec.xor_assoc, BitVec.xor_self, BitVec.xor_zero,
    inverseDiffuse_diffuse, substitute_sinv_sbox]

theorem decryptLastRound_encryptLastRound (b rk : Block) :
    decryptLastRound (encryptLastRound b rk) rk = b := by
  rw [decryptLastRound, encryptLastRound, BitVec.xor_assoc, BitVec.xor_self, BitVec.xor_zero,
    substitute_sinv_sbox]

/-- Settles O38: a round trip for the inner round and one for the last. -/
theorem roundsUndoEachOther : Obligations.RoundsUndoEachOther := fun b rk =>
  ⟨decryptRound_encryptRound b rk, decryptLastRound_encryptLastRound b rk⟩

/-! ### Keys at the edges -/

/-- The key of an encryption round only XORs the output (R69). -/
theorem encryptRound_eq_xor (b k : Block) : encryptRound b k = encryptRound b 0x000 ^^^ k := by
  rw [encryptRound, encryptRound, BitVec.ofNat_eq_ofNat, BitVec.xor_zero]

/-- The zero key leaves the substitution alone (R71). -/
theorem encryptLastRound_zero (b : Block) : encryptLastRound b 0x000 = substitute sbox b :=
  BitVec.xor_zero

/-- A block equal to its key decrypts as the zero block does, whose nibbles `SINV` sends to 7 (R72). -/
theorem decryptLastRound_self (b : Block) : decryptLastRound b b = 0x777 := by
  rw [decryptLastRound, BitVec.xor_self]
  decide

/-- Encryption ends in a last round under `RK3`, which DECLR takes off (R72). -/
theorem decryptLastRound_encrypt (rk : Vector Block 4) (p : Block) :
    decryptLastRound (encrypt rk p) rk[3] =
      encryptRound (encryptRound (p ^^^ rk[0]) rk[1]) rk[2] :=
  decryptLastRound_encryptLastRound _ _

/-! ### The round commands -/

/-- Settles O34: ENCR writes RESULT alone, and the key only XORs it. -/
theorem encrCommand : Obligations.EncrCommand :=
  ⟨resultCommand rfl (fun _ => rfl) (fun _ => rfl), by decide, by decide, encryptRound_eq_xor⟩

/-- Settles O35: DECR writes RESULT alone, and undoes ENCR under the same key. -/
theorem decrCommand : Obligations.DecrCommand :=
  ⟨resultCommand rfl (fun _ => rfl) (fun _ => rfl), by decide, by decide, by decide,
    decryptRound_encryptRound⟩

/-- Settles O36: ENCLR writes RESULT alone, and under the zero key gives SUB's result. -/
theorem enclrCommand : Obligations.EnclrCommand :=
  ⟨resultCommand rfl (fun _ => rfl) (fun _ => rfl), encryptLastRound_zero, by decide, by decide⟩

/-- Settles O37: DECLR writes RESULT alone, and under `RK3` takes the last round off an encryption. -/
theorem declrCommand : Obligations.DeclrCommand :=
  ⟨resultCommand rfl (fun _ => rfl) (fun _ => rfl), decryptLastRound_self, by decide,
    decryptLastRound_encrypt⟩

end Sys2Proof.Machine
end

section
/-! The cipher and its key: encryption and decryption undo each other (42_cipher.md R78, R79), the
host's write of a round key (R74), and the commands KEYLOCK, KEYRAND, ENC, DEC (R76, R77, R80, R81). -/

namespace Sys2Proof.Machine

open Sys2Proof.Spec

/-! ### Round trips -/

/-- Decryption takes off one stage after the other, last stage first. -/
theorem decrypt_encrypt (rk : Vector Block 4) (p : Block) : decrypt rk (encrypt rk p) = p := by
  rw [decrypt, encrypt, decryptLastRound_encryptLastRound, decryptRound_encryptRound,
    decryptRound_encryptRound, BitVec.xor_assoc, BitVec.xor_self, BitVec.xor_zero]

/-- Blocks are finite in number: encryption, having a left inverse, is a permutation of them, and the
left inverse is its inverse. -/
theorem encrypt_decrypt (rk : Vector Block 4) (c : Block) : encrypt rk (decrypt rk c) = c := by
  have hleft : Function.LeftInverse (decrypt rk) (encrypt rk) := decrypt_encrypt rk
  have hsurj : Function.Surjective (encrypt rk) := Finite.surjective_of_injective hleft.injective
  exact hleft.rightInverse_of_surjective hsurj c

/-- Settles O43: the stages are the definitions, and the round trips hold both ways. -/
theorem decryptUndoesEncrypt : Obligations.DecryptUndoesEncrypt := fun rk b =>
  ⟨rfl, rfl, decrypt_encrypt rk b, encrypt_decrypt rk b⟩

/-! ### The write of a round key -/

theorem rkWrite_locked {e : Engine} (h : e.keyv = true) (r : BitVec 2) (v : Word) :
    rkWrite r v e = { e with wdl := true } := if_pos h

theorem rkWrite_unlocked {e : Engine} (h : e.keyv = false) (r : BitVec 2) (v : Word) :
    rkWrite r v e =
      { e with rk := e.rk.set r.toNat (blockField v) r.isLt, rkw := setRkw r e.rkw } :=
  if_neg (by simp [h])

/-- `setRkw` sets bit `r` and keeps the others. -/
theorem setRkw_getLsbD : ∀ (r : BitVec 2) (rkw : BitVec 4) (q : Fin 4),
    (setRkw r rkw).getLsbD q.val = (decide (q.val = r.toNat) || rkw.getLsbD q.val) := by decide

theorem hostWrite_rk {a : Addr} {v : Word} {s : State} {r : BitVec 2} (hidle : Idle s)
    (h : a.toNat = 0x020 + r.toNat) :
    hostWrite a v s = .next { s with eng := rkWrite r v s.eng } :=
  hostWrite_at ((Engine.busy_eq_false _).2 hidle) (locate_rk a r h) nofun

/-- Settles O13: KEYV decides between the drop and the store, and the store is read entry by entry
and bit by bit. -/
theorem roundKeyWriteIsTakenUntilLocked : Obligations.RoundKeyWriteIsTakenUntilLocked := by
  intro s a r v hidle ha
  have hw := hostWrite_rk (v := v) (r := BitVec.ofFin r) hidle ha
  refine ⟨fun hk => ?locked, fun hk => ?unlocked⟩
  case locked => rw [hw, rkWrite_locked hk]
  case unlocked =>
    rw [rkWrite_unlocked hk] at hw
    refine ⟨_, _, hw, ?key, fun q hq => ?otherKeys, ?bit, fun q hq => ?otherBits⟩
    case key => simp [blockField_eq_ofNat]
    case otherKeys => simp [Fin.val_ne_of_ne hq.symm]
    case bit => exact (setRkw_getLsbD _ _ r).trans (by simp)
    case otherBits => exact (setRkw_getLsbD _ _ q).trans (by simp [Fin.val_ne_of_ne hq])

/-! ### Issue by the key check, and completion -/

section
variable {i : Instr} {s : State}

theorem recordsErr_faulted (hidle : Idle s) (hf : s.eng.fault = true) : RecordsErr i .faulted s :=
  (exec_idle hidle).trans (issue_faulted hf)

theorem recordsErr_of_keyError {c : ErrKind} (hidle : Idle s) (hf : s.eng.fault = false)
    (hk : keyError (keyRule i) s.eng = some c) (hc : c ≠ .nokey) : RecordsErr i c s := by
  rw [RecordsErr, exec_idle hidle, issue_rejected hf hk, raise_of_ne_nokey hc]

theorem recordsFatal_of_keyError (hidle : Idle s) (hf : s.eng.fault = false)
    (hk : keyError (keyRule i) s.eng = some .nokey) : RecordsFatal i s := by
  rw [RecordsFatal, exec_idle hidle, issue_rejected hf hk, raise_nokey]

theorem accepts_of_keyError_none (hidle : Idle s) (hf : s.eng.fault = false)
    (hk : keyError (keyRule i) s.eng = none) : Accepts i s :=
  (exec_idle hidle).trans (issue_accepted hf hk)

theorem completes_effect (hp : s.eng.pend = some i) (hq : s.eng.rngq.length = need i s.eng) :
    Completes i s (effect i s.eng) := exec_completes hp hq

end

/-- The issue of a command whose row of R52 asks for a key schedule. -/
theorem keyedIssue {i : Instr} (hkey : keyRule i = .required) : KeyedIssue i (encode i) :=
  ⟨rfl, decodeWord_encode i, fun _ => recordsErr_faulted,
    fun _ hidle hf hv => recordsFatal_of_keyError hidle hf (by simp [keyError, hkey, hv]),
    fun _ hidle hf hv => accepts_of_keyError_none hidle hf (by simp [keyError, hkey, hv])⟩

/-! ### Setting the schedule -/

/-- Settles O39: the issue errors are the lockable key check, and completion sets KEYV alone. -/
theorem keylockCommand : Obligations.KeylockCommand :=
  ⟨rfl, decodeWord_encode .keylock, fun _ => recordsErr_faulted,
    fun _ hidle hf hv =>
      recordsErr_of_keyError hidle hf (by simp [keyError, keyRule, hv]) (by decide),
    fun _ hidle hf hv hrkw =>
      recordsErr_of_keyError hidle hf (by simpa [keyError, keyRule, hv] using hrkw) (by decide),
    fun _ hidle hf hv hrkw =>
      accepts_of_keyError_none hidle hf (by simp [keyError, keyRule, hv, hrkw]),
    fun _ hp hq => completes_effect hp (by rw [hq]; rfl)⟩

theorem drawBlock_eq_packNat (b0 b1 b2 : Byte) :
    drawBlock b0 b1 b2 = packNat (b0.toNat % 16) (b1.toNat % 16) (b2.toNat % 16) := by
  rw [drawBlock, pack_eq_packNat, lowNibble_toNat, lowNibble_toNat, lowNibble_toNat]

/-- Twelve bytes fill the schedule, three to a round key in delivery order (R77). -/
theorem keySchedule_eq {q : List Byte} (h : q.length = 12) :
    keySchedule q = some (Vector.ofFn fun r : Fin 4 => plaintext q r.val) := by
  match q, h with
  | [b0, b1, b2, b3, b4, b5, b6, b7, b8, b9, b10, b11], _ =>
    simp only [keySchedule, drawBlock_eq_packNat]
    rfl

theorem engineTurn_pending {i : Instr} {s : State} (hp : s.eng.pend = some i) :
    engineTurn s = exec i s := by
  simp [engineTurn, hp]

/-- Settles O40: the issue errors are the unset key check, and the twelve bytes awaited are read as
four blocks. -/
theorem keyrandCommand : Obligations.KeyrandCommand := by
  refine ⟨rfl, decodeWord_encode .keyrand, fun _ => recordsErr_faulted,
    fun s hidle hf hv => ?keyset, fun s hidle hf hv => ?accepted, fun s hp hq => ?complete,
    fun s hp hq => ?waits, by decide⟩
  case keyset =>
    exact recordsErr_of_keyError hidle hf (by simp [keyError, keyRule, hv]) (by decide)
  case accepted => exact accepts_of_keyError_none hidle hf (by simp [keyError, keyRule, hv])
  case complete =>
    have heffect := completes_effect hp (by rw [hq]; rfl)
    rw [effect, keyrandEffect, keySchedule_eq hq] at heffect
    exact ⟨_, heffect, fun r => by simp⟩
  case waits =>
    have hshort : s.eng.rngq.length < need .keyrand s.eng := hq
    rw [engineTurn_pending hp, exec_waits hp (.inr (Nat.ne_of_lt hshort))]

/-! ### ENC and DEC -/

/-- Settles O41: ENC needs a key schedule and writes RESULT alone. -/
theorem encCommand : Obligations.EncCommand :=
  ⟨keyedIssue rfl, fun _ hp hq => completes_effect hp (by rw [hq]; rfl), by decide, by decide,
    by decide, by decide, by decide, by decide⟩

/-- Settles O42: DEC needs a key schedule and writes RESULT alone, and ENC and DEC undo each other. -/
theorem decCommand : Obligations.DecCommand :=
  ⟨keyedIssue rfl, fun _ hp hq => completes_effect hp (by rw [hq]; rfl),
    fun rk p => ⟨decrypt_encrypt rk p, encrypt_decrypt rk p⟩, by decide, by decide⟩

end Sys2Proof.Machine
end

section
/-! The constant tables: the loops of 43_tables.md R82 as a count of pairs, the invariants of R85, and
the windows the host reads them through (R83, R84, R86, R87). -/

namespace Sys2Proof.Machine

open Sys2Proof.Spec

/-! ### The loops of R82 -/

/-- Increments for a list of pairs add to each cell the number of those pairs that land in it. -/
theorem nget_foldl_bumpCell (t : Vector Nibble 16) (i o : Nibble) (l : List (Nibble × Nibble)) :
    ∀ m, nget (nget (l.foldl (bumpCell t) m) i) o = nget (nget m i) o +
      l.countP fun p => p.1 ^^^ p.2 == i && nget t p.1 ^^^ nget t p.2 == o := by
  induction l with
  | nil => exact fun _ => rfl
  | cons p l ih =>
    intro m
    rw [List.foldl_cons, ih, nget_bumpCell, List.countP_cons, Nat.add_assoc, Nat.add_comm (ite ..)]

/-- Settles O45: the increments start from zero, and a cell counts at most one pair for each first
nibble. -/
theorem buildDdtCountsPairs : Obligations.BuildDdtCountsPairs := by
  refine fun t i o => ⟨?_, ddtEntry_le t i o⟩
  rw [buildDDT, nget_foldl_bumpCell, nget_tabulate, nget_tabulate, Nat.zero_add, ddtEntry]

/-! ### Counting over the nibbles -/

/-- A relation's pairs counted by the second nibble are its pairs counted by the first. -/
theorem sum_countP_comm (r : Nibble → Nibble → Bool) (l m : List Nibble) :
    (m.map fun y => l.countP fun x => r x y).sum = (l.map fun x => m.countP (r x)).sum := by
  induction l with
  | nil => simp
  | cons x l ih =>
    simp only [List.countP_cons, List.map_cons, List.sum_cons, List.sum_map_add, ih, sum_map_ite]
    exact Nat.add_comm ..

theorem countP_nibbles_of_existsUnique {P : Nibble → Bool} (h : ∃! y, P y = true) :
    nibbles.countP P = 1 := by
  obtain ⟨y, hy, huniq⟩ := h
  have hP : ∀ z ∈ nibbles, P z = true ↔ (z == y) = true := fun z _ => by
    rw [beq_iff_eq]
    exact ⟨huniq z, fun e => e ▸ hy⟩
  rw [List.countP_congr hP]
  exact List.count_eq_one_of_mem nibbles_nodup (mem_nibbles y)

/-- A relation that gives each nibble exactly one partner has sixteen pairs. -/
theorem sum_countP_of_existsUnique {r : Nibble → Nibble → Bool} (h : ∀ x, ∃! y, r x y = true) :
    (nibbles.map fun y => nibbles.countP fun x => r x y).sum = 16 := by
  rw [sum_countP_comm]
  simp only [countP_nibbles_of_existsUnique (h _)]
  rfl

/-- A predicate that flipping by a nonzero `i` leaves alone holds of an even number of nibbles: the
flip pairs them off. -/
theorem countP_nibbles_even {P : Nibble → Bool} {i : Nibble} (hi : i ≠ 0)
    (hP : ∀ x, P x = true → P (x ^^^ i) = true) : nibbles.countP P % 2 = 0 := by
  have hcard : nibbles.countP P = (nibbles.filter P).toFinset.card := by
    rw [List.toFinset_card_of_nodup (nibbles_nodup.filter P), List.countP_eq_length_filter]
  have hsum : ∑ _x ∈ (nibbles.filter P).toFinset, (1 : ZMod 2) = 0 := by
    refine Finset.sum_involution (fun x _ => x ^^^ i) (fun _ _ => rfl) (fun x _ _ hx => ?moves)
      (fun x hx => ?stays) (fun x _ => ?involutive)
    case moves => exact hi (by simpa using hx)
    case stays =>
      simp only [List.mem_toFinset, List.mem_filter, mem_nibbles, true_and] at hx ⊢
      exact hP x hx
    case involutive => simp
  rw [hcard]
  rwa [Finset.sum_const, nsmul_one, ZMod.natCast_eq_zero_iff, Nat.dvd_iff_mod_eq_zero] at hsum

/-! ### The invariants of R85 -/

theorem sum_ddtEntry_row (t : Vector Nibble 16) (i : Nibble) :
    (nibbles.map fun o => ddtEntry t i o).sum = 16 := by
  simp only [ddtEntry_eq_countP]
  exact sum_countP_of_existsUnique fun x => by simp

theorem ddtEntry_row_zero (t : Vector Nibble 16) (o : Nibble) :
    ddtEntry t 0 o = if o = 0 then 16 else 0 := by
  rw [ddtEntry_eq_countP]
  simp only [BitVec.ofNat_eq_ofNat, BitVec.xor_zero, BitVec.xor_self]
  split
  next h => subst h; rfl
  next h => exact List.countP_eq_zero.2 fun _ _ => by simpa using Ne.symm h

/-- The pairs `(x, y)` and `(y, x)` land in the same cell (R85). -/
theorem ddtEntry_even (t : Vector Nibble 16) (i o : Nibble) : ddtEntry t i o % 2 = 0 := by
  by_cases hi : i = 0
  · rw [hi, ddtEntry_row_zero]
    split <;> rfl
  · rw [ddtEntry_eq_countP]
    refine countP_nibbles_even hi fun x hx => ?_
    rwa [BitVec.xor_assoc, BitVec.xor_self, BitVec.xor_zero, BitVec.xor_comm (nget t _)]

section
variable {t : Vector Nibble 16} (ht : ∀ x y : Nibble, nget t x = nget t y → x = y)
include ht

theorem nget_surjective_of_injective : Function.Surjective (nget t) :=
  have : Finite Nibble := Finite.of_injective BitVec.toFin fun _ _ => BitVec.eq_of_toFin_eq
  Finite.injective_iff_surjective.1 fun x y => ht x y

/-- In a permutation's table, first nibble and output difference determine the input difference. -/
theorem existsUnique_input_difference (o x : Nibble) :
    ∃! i, nget t x ^^^ nget t (x ^^^ i) = o := by
  obtain ⟨y, hy⟩ := nget_surjective_of_injective ht (nget t x ^^^ o)
  refine ⟨x ^^^ y, ?_, fun i hi => ?_⟩
  · have hxy : x ^^^ (x ^^^ y) = y := ((xor_eq_iff x y _).1 rfl).symm
    simp only [hxy]
    exact (xor_eq_iff _ _ _).2 hy
  · have hsame : nget t y = nget t (x ^^^ i) := hy.trans ((xor_eq_iff _ _ _).1 hi).symm
    exact ((xor_eq_iff x y i).2 (ht _ _ hsame)).symm

theorem sum_ddtEntry_column (o : Nibble) : (nibbles.map fun i => ddtEntry t i o).sum = 16 := by
  simp only [ddtEntry_eq_countP]
  exact sum_countP_of_existsUnique fun x => by
    simpa only [beq_iff_eq] using existsUnique_input_difference ht o x

/-- Distinct inputs have distinct outputs (R85). -/
theorem ddtEntry_column_zero {i : Nibble} (hi : i ≠ 0) : ddtEntry t i 0 = 0 := by
  rw [ddtEntry_eq_countP, List.countP_eq_zero]
  intro x _ hx
  have hsame : nget t x = nget t (x ^^^ i) := BitVec.xor_eq_zero_iff.1 (beq_iff_eq.1 hx)
  have hflip : x ^^^ i = x := (ht _ _ hsame).symm
  exact hi (by simpa using hflip)

end

/-! ### The tables of this build -/

/-- The table of R84 is the DDT of `SBOX`. -/
theorem ddtEntry_sbox : ∀ i o : Nibble, ddtEntry sbox i o = cell ddtTable i o := by
  simp only [ddtEntry_eq_countP]
  decide

/-- The table of R86 is the PXT of `SBOX`. -/
theorem pxtEntry_sbox : ∀ i j : Nibble, (pxtEntry sbox i j).toNat = cell pxtTable i j := by decide

theorem ddtTable_le : ∀ i o : Nibble, i ≠ 0 → cell ddtTable i o ≤ 8 := by decide

/-- Settles O46: the invariants hold of counts over one nibble, and the entries of this build are
read off the table of R84. -/
theorem ddtInvariantsOfPermutations : Obligations.DdtInvariantsOfPermutations := by
  refine ⟨fun t ht => ⟨sum_ddtEntry_row t, sum_ddtEntry_column ht, ddtEntry_row_zero t 0,
    fun d hd => (ddtEntry_row_zero t d).trans (if_neg hd), fun _ => ddtEntry_column_zero ht,
    ddtEntry_even t⟩, ?_⟩
  simp only [ddtEntry_sbox]
  exact ⟨ddtTable_le, rfl, rfl⟩

/-! ### The windows -/

/-- No window is VOLATILE, so BUSY does not matter to a read of one (R83). -/
theorem not_volatileAddr_of_window {a : Addr} (h : (0x030 ≤ a.toNat ∧ a.toNat ≤ 0x04F) ∨
    (0x100 ≤ a.toNat ∧ a.toNat ≤ 0x2FF)) : ¬VolatileAddr a := by
  unfold VolatileAddr
  omega

/-- Settles O47: each window is located on the map and its place read against the printed table;
all four are read-only. -/
theorem tableWindowsReadTheTables : Obligations.TableWindowsReadTheTables := by
  intro s
  have hd {a : Addr} (h : (0x030 ≤ a.toNat ∧ a.toNat ≤ 0x04F) ∨
      (0x100 ≤ a.toNat ∧ a.toNat ≤ 0x2FF)) : ¬(s.eng.busy = true ∧ VolatileAddr a) :=
    fun hv => not_volatileAddr_of_window h hv.2
  refine ⟨fun a i o h => ?ddt, fun a i j h => ?pxt, fun a x h => ?sboxt, fun a x h => ?sinvt,
    fun a v h hidle => ?write⟩
  case ddt => rw [hostRead_ddt i o (hd (by omega)) h, ddtEntry_sbox]
  case pxt =>
    rw [hostRead_field (by decide) (hd (by omega)) (locate_pxt a i j h) rfl, ← pxtEntry_sbox]
    exact ⟨rfl, rfl⟩
  case sboxt =>
    rw [hostRead_field (by decide) (hd (by omega)) (locate_sboxt a x h) rfl, sbox_toNat]
  case sinvt =>
    rw [hostRead_field (by decide) (hd (by omega)) (locate_sinvt a x h) rfl, sinv_toNat]
  case write =>
    obtain ⟨hcmd, hsame⟩ := writeLoc_of_readOnly (a := a) (.inl (.inr h))
    rw [hostWrite_at ((Engine.busy_eq_false _).2 hidle) rfl hcmd, hsame]

end Sys2Proof.Machine
end

section
/-! The attack datapath: the filter (44_attack.md R88), the pairs a generation keeps (R91, R92), the
counters (R95), the selection (R96), and the commands FILT, PAIRGEN, RECOVER (R90, R93, R97). -/

namespace Sys2Proof.Machine

open Sys2Proof.Spec

/-! ### The filter -/

theorem filterDiff_iff_and_ne_zero (m d : Block) : filterDiff m d = true ↔ m &&& d ≠ 0x000 := by
  simp [filterDiff_iff, block_eq_iff]

/-- Settles O49: both readings are the filter position by position. -/
theorem filterIsAnyPosition : Obligations.FilterIsAnyPosition := by
  refine fun m d => ⟨?_, filterDiff_iff_and_ne_zero m d⟩
  rw [filterDiff_iff]
  exact exists_congr fun p => (ult_zero_iff _).symm.trans decide_eq_true_iff

/-- FILT's result on packed blocks (R88, R90). -/
theorem filtResult_eq (m d : Block) :
    filtResult m d = if m &&& d ≠ 0x000 then 0x001 else 0x000 := by
  simp only [filtResult, filterDiff_iff_and_ne_zero]

theorem filtResult_allOnes (d : Block) : filtResult 0xFFF d = 0x001 ↔ d ≠ 0x000 := by
  have hmask : 0xFFF &&& d = d := BitVec.allOnes_and
  rw [filtResult_eq, hmask]
  simp

/-- Settles O50: FILT writes RESULT alone, and what it writes is decided by the packed AND. -/
theorem filtCommand : Obligations.FiltCommand :=
  ⟨resultCommand rfl (fun _ => rfl) (fun e => by rw [← filtResult_eq]; rfl),
    fun d => by simp [filtResult], fun m => by simp [filtResult], filtResult_allOnes, by decide,
    by decide⟩

/-! ### Pair generation -/

theorem plaintext_zero (b0 b1 b2 : Byte) (q : List Byte) :
    plaintext (b0 :: b1 :: b2 :: q) 0 = drawBlock b0 b1 b2 :=
  (drawBlock_eq_packNat b0 b1 b2).symm

/-- The first three bytes give sample 0, and sample `k + 1` is sample `k` of the bytes after them
(R91, R92). -/
theorem generatePairs_eq_filter (rk : Vector Block 4) (idf m : Block) (n : Nat) :
    ∀ q : List Byte, q.length = 3 * n → generatePairs rk idf m n q =
      ((List.range n).map fun k => cipherPair rk idf (plaintext q k)).filter
        fun pr => filterDiff m (pr.c0 ^^^ pr.c1) := by
  induction n with
  | zero => exact fun _ _ => rfl
  | succ n ih =>
    intro q hq
    match q, hq with
    | b0 :: b1 :: b2 :: q, hq =>
      have hrest : q.length = 3 * n := by
        simp only [List.length_cons] at hq
        omega
      rw [generatePairs_succ, ih q hrest, List.range_succ_eq_map, List.map_cons, List.map_map,
        plaintext_zero]
      exact (List.filter_append ..).symm

theorem filterDiff_eq_bne (m d : Block) : filterDiff m d = (d &&& m != 0x000) := by
  rw [Bool.eq_iff_iff, filterDiff_iff_and_ne_zero, bne_iff_ne, BitVec.and_comm]

/-- Settles O51: a generation filters the samples, and the filter is the packed AND with the
mask. -/
theorem generatePairsFiltersTheSamples : Obligations.GeneratePairsFiltersTheSamples := by
  intro rk idf m n q hq
  rw [generatePairs_eq_filter rk idf m n q hq]
  simp only [filterDiff_eq_bne]

/-- Equal plaintexts have equal ciphertexts, and no filter passes a zero difference (R93). -/
theorem generatePairs_zero_difference (rk : Vector Block 4) (m : Block) (n : Nat) (q : List Byte) :
    generatePairs rk 0x000 m n q = [] := by
  refine List.eq_nil_iff_forall_not_mem.2 fun pr hpr => ne_of_mem_generatePairs hpr ?_
  obtain ⟨p0, rfl⟩ := samplePair_of_mem_generatePairs hpr
  simp [samplePair]

/-- A mask that tests no bit keeps no pair (R93). -/
theorem generatePairs_zero_mask (rk : Vector Block 4) (d : Block) (n : Nat) (q : List Byte) :
    generatePairs rk d 0x000 n q = [] := by
  refine List.eq_nil_iff_forall_not_mem.2 fun pr hpr => ?_
  simpa using filterDiff_of_mem_generatePairs hpr

/-- Settles O52: completion writes the buffer, the count and the overflow of the pairs kept, and the
count fits its 16 bits. -/
theorem pairgenCommand : Obligations.PairgenCommand :=
  ⟨keyedIssue rfl,
    fun _ hp hq => ⟨_, _, _, completes_effect hp hq, Memory.read_ofPairs _,
      generatePairs_length_toNat .., generatePairs_length_le .., decide_eq_true_iff⟩,
    generatePairs_zero_difference, generatePairs_zero_mask, by decide⟩

/-! ### Counters -/

/-- A counter does not wrap for as many pairs as a run can retain. -/
theorem countPairs_toNat {ps : List Pair} (h : ps.length ≤ 65535) (tdf km : Block) (k : Nibble) :
    (nget (countPairs ps tdf km) k).toNat = (ps.filter (hit tdf km k)).length := by
  have hle := countFor_le_length ps tdf km k
  rw [nget_countPairs, BitVec.toNat_ofNat, Nat.mod_eq_of_lt (by omega), countFor,
    List.countP_eq_length_filter]

theorem guess_eq_packNat (km : Block) (k : Nibble) : guess km k =
    packNat (pos km 0 &&& k.toNat) (pos km 1 &&& k.toNat) (pos km 2 &&& k.toNat) := by
  simp only [guess, pack_eq_packNat, BitVec.toNat_and, nib_toNat]
  rfl

/-- Under any guess, two nibbles decrypt to the same one only where they are the same: `SINV` is a
bijection (R95). -/
theorem sinv_xor_eq_zero_iff (a b g : Nibble) :
    nget sinv (a ^^^ g) ^^^ nget sinv (b ^^^ g) = 0 ↔ a = b := by
  rw [BitVec.ofNat_eq_ofNat, BitVec.xor_eq_zero_iff]
  exact ⟨fun h => (BitVec.xor_left_inj g).1 (sinv_injective h), fun h => h ▸ rfl⟩

theorem nib_decryptLastRound (c g : Block) (p : Fin 3) :
    nib (decryptLastRound c g) p = nget sinv (nib c p ^^^ nib g p) := by
  simp [decryptLastRound]

/-- A pair's hit does not depend on the mask where the target difference is zero. -/
theorem hit_congr_mask {tdf km km' : Block}
    (h : ∀ p : Fin 3, nib tdf p ≠ 0 → nib km p = nib km' p) (k : Nibble) (pr : Pair) :
    hit tdf km k pr = hit tdf km' k pr := by
  rw [Bool.eq_iff_iff, hit_iff, hit_iff]
  refine forall_congr' fun p => ?_
  by_cases hp : nib tdf p = 0
  · rw [hp, sinv_xor_eq_zero_iff, sinv_xor_eq_zero_iff]
  · rw [h p hp]

/-- Settles O53: a counter counts hits, and a hit at a position with no target difference is the
equality of the two ciphertext nibbles. -/
theorem countersCountMatchingPairs : Obligations.CountersCountMatchingPairs := by
  refine ⟨fun ps tdf km k h => countPairs_toNat h tdf km k, guess_eq_packNat,
    fun tdf g c0 c1 p hp => ?zeroTarget, fun ps tdf km km' h => ?maskIndependent⟩
  case zeroTarget =>
    rw [nib_xor, nib_decryptLastRound, nib_decryptLastRound, hp, sinv_xor_eq_zero_iff]
  case maskIndependent =>
    refine table_ext fun k => ?_
    rw [nget_countPairs, nget_countPairs, countFor_congr fun pr _ => hit_congr_mask h k pr]

/-! ### Selection -/

theorem firstMax_argmaxFirst (c : Vector Count 16) : FirstMax c (argmaxFirst c) := by
  rw [argmaxFirst_eq]
  refine ⟨fun k => (scanBest_ge c nibbles 0).2 k (mem_nibbles k), fun k hk => ?_⟩
  rcases scanBest_first c nibbles 0 with hstart | ⟨l1, l2, hsplit, -, hbefore⟩
  · rw [hstart] at hk
    exact absurd hk (Nat.not_lt_zero _)
  · exact hbefore k (mem_of_nibbles_split hsplit hk)

/-- The two conditions of R96 on a working copy are met by one table only. -/
theorem eq_zeroAt {c w : Vector Count 16} {t : Nibble} (ht : nget w t = 0)
    (hne : ∀ k, k ≠ t → nget w k = nget c k) : w = zeroAt c t := by
  refine table_ext fun k => ?_
  by_cases hk : k = t
  · rw [hk, ht, nget_zeroAt_self]
  · rw [hne k hk, nget_zeroAt_ne c hk]

/-- The first maximum is where a zero stands only if it is index 0 and every count is 0. -/
theorem eq_zero_of_firstMax_zero {w : Vector Count 16} {t : Nibble} (h : FirstMax w t)
    (ht : nget w t = 0) : t = 0 ∧ ∀ k, nget w k = 0 := by
  obtain ⟨hmax, hfirst⟩ := h
  rw [ht] at hmax hfirst
  refine ⟨BitVec.eq_of_toNat_eq (Nat.eq_zero_of_not_pos fun hpos => ?_), fun k =>
    BitVec.eq_of_toNat_eq (Nat.le_zero.1 (hmax k))⟩
  exact Nat.not_lt_zero _ (hfirst 0 hpos)

/-- The second candidate is the first again only in the degenerate case of R96. -/
theorem argmaxFirst_zeroAt_eq_iff (c : Vector Count 16) (t : Nibble) :
    argmaxFirst (zeroAt c t) = t ↔ t = 0 ∧ ∀ k, k ≠ 0 → nget c k = 0 := by
  have hsecond := firstMax_argmaxFirst (zeroAt c t)
  constructor
  · intro h
    rw [h] at hsecond
    obtain ⟨rfl, hzero⟩ := eq_zero_of_firstMax_zero hsecond (nget_zeroAt_self c t)
    exact ⟨rfl, fun k hk => nget_zeroAt_ne c hk ▸ hzero k⟩
  · rintro ⟨rfl, hzero⟩
    have hall (k : Nibble) : nget (zeroAt c 0) k = 0 := by
      by_cases hk : k = 0
      · rw [hk, nget_zeroAt_self]
      · rw [nget_zeroAt_ne c hk, hzero k hk]
    exact (eq_zero_of_firstMax_zero hsecond (hall _)).1

/-- Settles O54: each scan ends at a first maximum, and RECOVER selects from the counts it
writes. -/
theorem selectionTakesFirstMaxima : Obligations.SelectionTakesFirstMaxima := by
  refine ⟨fun c => ⟨argmaxFirst c, argmaxFirst (zeroAt c (argmaxFirst c)), rfl,
    firstMax_argmaxFirst c, fun w hw hne => ?_, argmaxFirst_zeroAt_eq_iff c _⟩,
    fun s hp hq => ⟨_, completes_effect hp hq, rfl, rfl⟩⟩
  rw [← eq_zeroAt hw hne]
  exact firstMax_argmaxFirst w

/-! ### RECOVER -/

/-- Settles O55: the mask is derived position by position, and completion writes the counters, their
selection and the number of pairs, which fits its 16 bits. -/
theorem recoverCommand : Obligations.RecoverCommand :=
  ⟨nib_dmask, keyedIssue rfl,
    fun _ hp hq => ⟨_, completes_effect hp hq, generatePairs_length_toNat ..⟩⟩

end Sys2Proof.Machine
end

section
/-! Errors (60_exceptions.md): where ERR is written (R101), and the sticky FAULT (R102). -/

namespace Sys2Proof.Machine

open Sys2Proof.Spec

/-! ### What leaves ERR and FAULT alone -/

@[simp] theorem effect_err (i : Instr) (e : Engine) : (effect i e).err = e.err := by
  simp only [effect_frame]

@[simp] theorem effect_fault (i : Instr) (e : Engine) : (effect i e).fault = e.fault := by
  simp only [effect_frame]

@[simp] theorem writeLoc_err (l : Loc) (v : Word) (e : Engine) : (writeLoc l v e).err = e.err := by
  simp only [writeLoc_frame]

@[simp] theorem writeLoc_fault (l : Loc) (v : Word) (e : Engine) :
    (writeLoc l v e).fault = e.fault := by
  simp only [writeLoc_frame]

/-- Of all moves, only the issue of a word and the reset input write ERR. -/
theorem Move.err_eq {s : State} {e : Engine} (h : Move s e) (hr : nextTurn s ≠ .reset)
    (hw : ∀ w, ¬NextWriteTaken 0x000 w s) : e.err = s.eng.err := by
  cases h with
  | still | byte | dropped => rfl
  | completion => simp
  | stored => simp
  | reset hreset => exact absurd hreset hr
  | faulted hn w p hprog hp | illegal hn w p hprog hp | rejected hn w p hprog hp
  | accepted hn w p hprog hp => exact absurd ⟨hn, ⟨p, hprog⟩, hp⟩ (hw w)

/-- No move but the reset input clears FAULT. -/
theorem Move.fault_kept {s : State} {e : Engine} (h : Move s e) (hr : nextTurn s ≠ .reset)
    (hfault : s.eng.fault = true) : e.fault = true := by
  cases h with
  | still | byte | dropped | faulted => exact hfault
  | completion => simpa using hfault
  | stored => simpa using hfault
  | reset hreset => exact absurd hreset hr
  | illegal _ _ _ _ _ hf | rejected _ _ _ _ _ hf | accepted _ _ _ _ _ hf =>
    exact absurd (hfault.symm.trans hf) (by decide)

/-! ### The issue of a written word -/

/-- The host's write is what the step runs, past the turn and past the transaction. -/
theorem step_of_host_write {s : State} {a : Addr} {v : Word} {p : List HostOp}
    (hn : nextTurn s = .host) (hprog : s.prog = .write a v :: p) :
    step s = hostWrite a v { s with turns := s.turns.tail, prog := p } := by
  simp only [step_eq, hn, takeTurn, hostTurn, hprog]

theorem hostWrite_cmd_eq_issued {w : Word} {s : State} (hidle : Idle s) :
    hostWrite 0x000 w s = .next { s with eng := issued w s.eng } :=
  (hostWrite_cmd hidle).trans (issueWord_eq_issued w hidle)

/-- The step of a CMD write taken while idle is `Issue` of its word (30_encoding.md R54). -/
theorem step_eng_of_cmd_write {s t : State} {w : Word} (h : step s = .next t)
    (hw : NextWriteTaken 0x000 w s) : t.eng = issued w s.eng := by
  obtain ⟨hn, ⟨p, hprog⟩, hidle⟩ := hw
  rw [(step_of_host_write hn hprog).trans (hostWrite_cmd_eq_issued hidle)] at h
  cases h
  rfl

/-- `Issue` leaves OK in ERR exactly where it makes the word's command pending. -/
theorem issued_err_eq_ok_iff (w : Word) {e : Engine} (hidle : e.pend = none) :
    (issued w e).err = .ok ↔ (issued w e).busy = true := by
  cases hf : e.fault with
  | true => simp [issued_faulted hf, Engine.busy, hidle]
  | false =>
    cases hw : decodeWord w with
    | none => simp [issued_illegal hw hf, Engine.busy, hidle]
    | some i =>
      rw [eq_encode_of_decodeWord hw, issued_encode i hf]
      split_ifs <;> simp [Engine.busy, hidle]

/-- Settles O16: the moves are gone through one by one, and at a CMD write the step is `Issue`. -/
theorem errChangesOnlyAtCmdWrites : Obligations.ErrChangesOnlyAtCmdWrites := by
  refine fun s t h => ⟨(step_move h).err_eq, fun w hw => ?_⟩
  rw [step_eng_of_cmd_write h hw]
  obtain ⟨-, -, hidle⟩ := hw
  exact ⟨rfl, issued_err_eq_ok_iff w hidle⟩

/-! ### The fatal fault -/

theorem keyRule_eq_required_iff (i : Instr) :
    keyRule i = .required ↔ i ∈ [.enc, .dec, .pairgen, .recover] := by
  cases i <;> decide

/-- While FAULT is set, `Issue` of any word is the rejection with FAULTED (R102). -/
theorem hostWrite_cmd_faulted {w : Word} {s : State} (hidle : Idle s)
    (hf : s.eng.fault = true) :
    hostWrite 0x000 w s = .next { s with eng := { s.eng with err := .faulted } } := by
  rw [hostWrite_cmd_eq_issued hidle, issued_faulted hf]

/-- A register write neither reads nor writes FAULT: it commutes with setting it. -/
theorem writeLoc_setFault (l : Loc) (v : Word) (e : Engine) (b : Bool) :
    writeLoc l v { e with fault := b } = { writeLoc l v e with fault := b } := by
  cases l with
  | rk r => cases hk : e.keyv <;> simp [writeLoc, rkWrite, hk]
  | _ => rfl

theorem hostWrite_setFault {a : Addr} {v : Word} {s : State} (hidle : Idle s) (ha : a ≠ 0x000)
    (b : Bool) : hostWrite a v { s with eng := { s.eng with fault := b } } =
      .next { s with eng := { writeLoc (locate a) v s.eng with fault := b } } := by
  rw [← writeLoc_setFault]
  exact hostWrite_stored hidle ha

theorem locate_eq_status {a : Addr} (h : locate a = .status) : a = 0x001 := by
  rw [← addr_locate a, h]
  rfl

/-- `STATUS` is the only place that shows FAULT. -/
theorem readLoc_setFault {l : Loc} (hl : l ≠ .status) (e : Engine) (b : Bool) :
    readLoc l { e with fault := b } = readLoc l e := by
  cases l with
  | status => exact absurd rfl hl
  | _ => rfl

theorem hostRead_idle {a : Addr} {s : State} (hidle : Idle s) :
    (hostRead a s).1 = readLoc (locate a) s.eng := by
  rw [hostRead_defined (.inl hidle)]

theorem hostRead_setFault {a : Addr} {s : State} (hidle : Idle s) (ha : a ≠ 0x001) (b : Bool) :
    (hostRead a { s with eng := { s.eng with fault := b } }).1 = (hostRead a s).1 := by
  have hl : locate a ≠ .status := fun hl => ha (locate_eq_status hl)
  rw [hostRead_idle hidle, ← readLoc_setFault hl s.eng b]
  exact hostRead_idle hidle

/-- Settles O17: the issue clauses are `Issue`'s, register writes and reads do not depend on FAULT,
and no move but the reset input clears it. -/
theorem faultIsFatalUntilReset : Obligations.FaultIsFatalUntilReset := by
  refine ⟨fun s i hi hidle hf hv => ?_, fun _ _ => hostWrite_cmd_faulted,
    fun _ _ _ hidle ha =>
      ⟨_, hostWrite_setFault hidle ha false, hostWrite_setFault hidle ha true⟩,
    fun _ _ hidle ha =>
      (hostRead_setFault hidle ha true).trans (hostRead_setFault hidle ha false).symm,
    fun _ _ h => (step_move h).fault_kept⟩
  obtain ⟨-, -, -, hnokey, -⟩ := keyedIssue ((keyRule_eq_required_iff i).2 hi)
  exact hnokey s hidle hf hv

end Sys2Proof.Machine
end

section
/-! Reset (70_reset_and_hazards.md R118): what the counters, the round keys and the pair buffer of the
reset engine read as, and with them the reset table. -/

namespace Sys2Proof.Machine

/-- Where nothing is listed every entry of the pair buffer is the zero pair (10_state.md R25). -/
@[simp] theorem Memory.read_nil (n : Nat) : Memory.read [] n = Memory.unlisted := rfl

theorem nget_cnt_reset (k : Nibble) : nget Engine.reset.cnt k = 0 := nget_tabulate _ k

theorem rk_reset : ∀ r : Fin 4, Engine.reset.rk[r] = 0 := by decide

theorem pbuf_read_reset (n : Nat) : Engine.reset.pbuf.read n = ⟨0x000, 0x000⟩ := Memory.read_nil n

/-- Settles O7: the counters, the round keys and the pair buffer are read entry by entry, and every
other row of the reset table is a single field. -/
theorem resetValuesOfTheEngine : Obligations.ResetValuesOfTheEngine :=
  ⟨rfl, rfl, rfl, rfl, rfl, rfl, rfl, rfl, rfl, rfl, rfl, rfl, rfl, rfl, rfl, rfl, rfl, rfl,
    rfl, rfl, nget_cnt_reset, rk_reset, pbuf_read_reset, rfl⟩

end Sys2Proof.Machine
end

section
/-! What each operation leaves alone, register by register: the effects of the commands (30_encoding.md
R52), the host's writes (20_memory.md R34), and when the RNG has a step (60_exceptions.md R113). -/

namespace Sys2Proof.Machine

/-! ### Effects -/

@[simp] theorem effect_opa (i : Instr) (e : Engine) : (effect i e).opa = e.opa := by
  simp only [effect_frame]

@[simp] theorem effect_wdb (i : Instr) (e : Engine) : (effect i e).wdb = e.wdb := by
  simp only [effect_frame]

@[simp] theorem effect_wdl (i : Instr) (e : Engine) : (effect i e).wdl = e.wdl := by
  simp only [effect_frame]

/-- KEYRAND writes the schedule and its flags, and no more, however many bytes it finds. -/
theorem keyrandEffect_frame (e : Engine) : keyrandEffect e =
    { e with
      keyv := (keyrandEffect e).keyv, rkw := (keyrandEffect e).rkw, rk := (keyrandEffect e).rk } := by
  unfold keyrandEffect
  split <;> rfl

/-- With its twelve bytes KEYRAND sets a whole schedule (42_cipher.md R77). -/
theorem keyrandEffect_set {e : Engine} (h : e.rngq.length = 12) :
    (keyrandEffect e).keyv = true ∧ (keyrandEffect e).rkw = 0b1111 := by
  rw [keyrandEffect, keySchedule_eq h]
  exact ⟨rfl, rfl⟩

/-- Column "writes" of R52, for the registers that only some commands write. -/
theorem effect_column (i : Instr) (e : Engine) :
    (i ∈ [.keylock, .keyrand, .pairgen, .recover] → (effect i e).result = e.result) ∧
    (i ≠ .keylock → i ≠ .keyrand → (effect i e).keyv = e.keyv) ∧
    (i ≠ .keyrand → (effect i e).rk = e.rk ∧ (effect i e).rkw = e.rkw) ∧
    (i ≠ .pairgen → (effect i e).povf = e.povf ∧ (effect i e).pbuf = e.pbuf) ∧
    (i ≠ .recover → (effect i e).cnt = e.cnt ∧ (effect i e).cand0 = e.cand0 ∧
      (effect i e).cand1 = e.cand1) ∧
    (i ≠ .pairgen → i ≠ .recover → (effect i e).npairs = e.npairs) := by
  cases i with
  | keyrand =>
    rw [effect, keyrandEffect_frame]
    simp
  | _ => simp [effect, pairgenEffect, recoverEffect]

/-- No command clears KEYV. -/
theorem effect_keyv_kept (i : Instr) {e : Engine} (h : e.keyv = true) :
    (effect i e).keyv = true := by
  cases i with
  | keylock => rfl
  | keyrand =>
    rw [effect, keyrandEffect]
    split
    · rfl
    · exact h
  | _ => exact h

/-! ### Host writes -/

@[simp] theorem writeLoc_pend (l : Loc) (v : Word) (e : Engine) :
    (writeLoc l v e).pend = e.pend := by
  simp only [writeLoc_frame]

@[simp] theorem writeLoc_rngq (l : Loc) (v : Word) (e : Engine) :
    (writeLoc l v e).rngq = e.rngq := by
  simp only [writeLoc_frame]

@[simp] theorem writeLoc_keyv (l : Loc) (v : Word) (e : Engine) :
    (writeLoc l v e).keyv = e.keyv := by
  simp only [writeLoc_frame]

@[simp] theorem writeLoc_cnt (l : Loc) (v : Word) (e : Engine) :
    (writeLoc l v e).cnt = e.cnt := by
  simp only [writeLoc_frame]

@[simp] theorem writeLoc_cand0 (l : Loc) (v : Word) (e : Engine) :
    (writeLoc l v e).cand0 = e.cand0 := by
  simp only [writeLoc_frame]

@[simp] theorem writeLoc_cand1 (l : Loc) (v : Word) (e : Engine) :
    (writeLoc l v e).cand1 = e.cand1 := by
  simp only [writeLoc_frame]

@[simp] theorem writeLoc_pbuf (l : Loc) (v : Word) (e : Engine) :
    (writeLoc l v e).pbuf = e.pbuf := by
  simp only [writeLoc_frame]

/-! ### The RNG -/

theorem wantsByte_iff (e : Engine) :
    e.wantsByte = true ↔ ∃ i, e.pend = some i ∧ e.rngq.length < need i e := by
  cases hp : e.pend <;> simp [Engine.wantsByte, hp]

end Sys2Proof.Machine
end

section
/-! The selection of equal counts (44_attack.md R96): a first maximum is unique, so the two candidates
are known where two first maxima are. -/

namespace Sys2Proof.Machine

open Sys2Proof.Spec

theorem firstMax_unique {c : Vector Count 16} {t u : Nibble} (ht : FirstMax c t)
    (hu : FirstMax c u) : t = u := by
  obtain ⟨htmax, htfirst⟩ := ht
  obtain ⟨humax, hufirst⟩ := hu
  refine BitVec.eq_of_toNat_eq (Nat.le_antisymm (Nat.le_of_not_lt fun hlt => ?_)
    (Nat.le_of_not_lt fun hlt => ?_))
  · exact Nat.not_lt.2 (humax t) (htfirst u hlt)
  · exact Nat.not_lt.2 (htmax u) (hufirst t hlt)

theorem selectTop2_eq {c : Vector Count 16} {t u : Nibble} (ht : FirstMax c t)
    (hu : FirstMax (zeroAt c t) u) : selectTop2 c = (t, u) := by
  rw [selectTop2, firstMax_unique (firstMax_argmaxFirst c) ht,
    firstMax_unique (firstMax_argmaxFirst (zeroAt c t)) hu]

/-- Of equal counts the first is the first maximum. -/
theorem firstMax_zero_of_equal {c : Vector Count 16} (h : ∀ k, nget c k = nget c 0) :
    FirstMax c 0 :=
  ⟨fun k => by rw [h k], fun _ hk => absurd hk (Nat.not_lt_zero _)⟩

theorem nget_zeroAt_tabulate (x : Count) (k : Nibble) :
    nget (zeroAt (tabulate fun _ => x) 0) k = if k = 0 then 0 else x := by
  split
  next hk => rw [hk, nget_zeroAt_self]
  next hk => rw [nget_zeroAt_ne _ hk, nget_tabulate]

/-- Where nothing is counted both candidates are 0. -/
theorem selectTop2_zero : selectTop2 (tabulate fun _ => 0) = (0, 0) :=
  selectTop2_eq (firstMax_zero_of_equal fun _ => by simp only [nget_tabulate])
    (firstMax_zero_of_equal fun _ => by simp only [nget_zeroAt_tabulate, ite_self])

/-- With the first of equal nonzero counts zeroed, the second is the first maximum. -/
theorem firstMax_one_zeroAt {x : Count} (hx : x ≠ 0) :
    FirstMax (zeroAt (tabulate fun _ => x) 0) 1 := by
  have hone : nget (zeroAt (tabulate fun _ => x) 0) 1 = x := nget_zeroAt_tabulate x 1
  have hpos : 0 < x.toNat := Nat.pos_of_ne_zero fun h => hx (BitVec.eq_of_toNat_eq h)
  refine ⟨fun k => ?_, fun k hk => ?_⟩ <;> rw [hone, nget_zeroAt_tabulate]
  · split
    · exact Nat.zero_le _
    · exact Nat.le_refl _
  · rw [if_pos (BitVec.eq_of_toNat_eq (Nat.lt_one_iff.1 hk))]
    exact hpos

theorem selectTop2_equal {x : Count} (hx : x ≠ 0) : selectTop2 (tabulate fun _ => x) = (0, 1) :=
  selectTop2_eq (firstMax_zero_of_equal fun _ => by simp only [nget_tabulate])
    (firstMax_one_zeroAt hx)

end Sys2Proof.Machine
end

section
/-! The invariant of the engine: reset establishes it and every move keeps it, one lemma for each way
the engine can change. -/

namespace Sys2Proof.Machine

/-! ### The key check and the invariant's two kinds of command -/

theorem usesSchedule_iff (i : Instr) : usesSchedule i = true ↔ keyRule i = .required := by
  cases i <;> decide

theorem setsSchedule_iff (i : Instr) :
    setsSchedule i = true ↔ keyRule i = .unset ∨ keyRule i = .lockable := by
  cases i <;> decide

/-- Of the codes that say the fault is set, a key check gives NOKEY alone, and only where no schedule
is. -/
theorem keyError_fatal {k : KeyRule} {e : Engine} {c : ErrKind} (h : keyError k e = some c) :
    (c = .nokey → e.keyv = false) ∧ c ≠ .faulted := by
  rcases keyError_cases h with ⟨rfl, -, hv⟩ | ⟨rfl, -, -⟩ | ⟨rfl, -, -⟩
  · exact ⟨fun _ => hv, nofun⟩
  · exact ⟨nofun, nofun⟩
  · exact ⟨nofun, nofun⟩

/-! ### Reset -/

theorem Engine.inv_reset : Engine.reset.Inv where
  idle_queue _ := rfl
  queue_le := nofun
  pending_ok := nofun
  pending_keyed := nofun
  pending_unkeyed := nofun
  pending_lock := nofun
  keyed_written := nofun
  fault_unkeyed := nofun
  fault_err := by decide
  pbuf_wf := rfl
  pbuf_differ := nofun
  cand_of_cnt := selectTop2_zero.symm

/-- Settles O59: nothing is pending, keyed, faulted or stored, and equal counts select 0 and 0. -/
theorem resetMeetsTheInvariant : Obligations.ResetMeetsTheInvariant := Engine.inv_reset

/-! ### The moves -/

section
variable {e : Engine} (h : e.Inv)
include h

/-- The RNG delivers no more than is needed. -/
theorem Engine.Inv.deliver {b : Byte} (hw : e.wantsByte = true) :
    Engine.Inv { e with rngq := e.rngq ++ [b] } := by
  obtain ⟨i, hp, hlt⟩ := (wantsByte_iff e).1 hw
  refine { h with idle_queue := fun hidle => ?_, queue_le := fun j hj => ?_ }
  · exact absurd (hp.symm.trans hidle) nofun
  · obtain rfl : i = j := Option.some.inj (hp.symm.trans hj)
    rw [List.length_append]
    exact hlt

/-- Recording an error on an idle engine. -/
theorem Engine.Inv.record {c : ErrKind} {b : Bool} (hp : e.pend = none)
    (hkey : b = true → e.keyv = false) (hcode : b = true ↔ c = .nokey ∨ c = .faulted) :
    Engine.Inv { e with err := c, fault := b } :=
  { h with
    pending_ok := fun _ hi => absurd (hp.symm.trans hi) nofun
    fault_unkeyed := hkey
    fault_err := hcode }

/-- What a pending command may rely on is what its issue has checked (30_encoding.md R54). -/
theorem Engine.Inv.accept {i : Instr} (hp : e.pend = none) (hf : e.fault = false)
    (hk : keyError (keyRule i) e = none) :
    Engine.Inv { e with err := .ok, pend := some i } := by
  obtain ⟨hrequired, hunset, hlockable⟩ := keyError_none hk
  have hnofault : ¬e.fault = true := by simp [hf]
  refine { h with
    idle_queue := nofun
    queue_le := fun j _ => ?queue
    pending_ok := fun _ _ => ⟨rfl, hf⟩
    pending_keyed := ?keyed
    pending_unkeyed := ?unkeyed
    pending_lock := ?lock
    fault_err := iff_of_false hnofault (by simp) }
  case queue =>
    rw [h.idle_queue hp]
    exact Nat.zero_le _
  case keyed =>
    rintro _ ⟨⟩ hu
    exact hrequired ((usesSchedule_iff i).1 hu)
  case unkeyed =>
    rintro _ ⟨⟩ hs
    rcases (setsSchedule_iff i).1 hs with hr | hr
    · exact hunset hr
    · exact (hlockable hr).1
  case lock =>
    rintro ⟨⟩
    exact (hlockable rfl).2

/-- A write to an idle engine stores into no register that the invariant speaks of, but for RKW while
no schedule is set. -/
theorem Engine.Inv.store (hp : e.pend = none) (l : Loc) (v : Word) : (writeLoc l v e).Inv where
  idle_queue _ := by simpa using h.idle_queue hp
  queue_le _ hi := by simp [hp] at hi
  pending_ok _ hi := by simp [hp] at hi
  pending_keyed _ hi := by simp [hp] at hi
  pending_unkeyed _ hi := by simp [hp] at hi
  pending_lock hi := by simp [hp] at hi
  keyed_written hk := by
    rw [writeLoc_keyv] at hk
    exact (writeLoc_keyed l v e hk).2.trans (h.keyed_written hk)
  fault_unkeyed := by simpa using h.fault_unkeyed
  fault_err := by simpa using h.fault_err
  pbuf_wf := by simpa using h.pbuf_wf
  pbuf_differ := by simpa using h.pbuf_differ
  cand_of_cnt := by simpa using h.cand_of_cnt

/-! ### Completion -/

section
variable {i : Instr} (hp : e.pend = some i)
include hp

/-- A command that sets the schedule sets a wholly written one (42_cipher.md R76, R77). -/
theorem Engine.Inv.effect_keyed_written (hq : e.rngq.length = need i e)
    (hk : (effect i e).keyv = true) : (effect i e).rkw = 0b1111 := by
  cases i with
  | keylock => exact h.pending_lock hp
  | keyrand => exact (keyrandEffect_set hq).2
  | _ => exact h.keyed_written hk

omit hp in
/-- PAIRGEN writes the buffer in canonical form, from pairs the filter kept. -/
theorem Engine.Inv.effect_pbuf : (effect i e).pbuf.wf = true ∧
    ∀ n p, (n, p) ∈ (effect i e).pbuf → p.c0 ≠ p.c1 := by
  by_cases hi : i = .pairgen
  · subst hi
    exact ⟨Memory.ofPairs_wf _, fun _ _ hm => ne_of_mem_generatePairs (Memory.mem_of_mem_ofPairs hm)⟩
  · obtain ⟨-, -, -, hpbuf, -, -⟩ := effect_column i e
    rw [(hpbuf hi).2]
    exact ⟨h.pbuf_wf, h.pbuf_differ⟩

omit hp in
theorem Engine.Inv.effect_cand :
    ((effect i e).cand0, (effect i e).cand1) = selectTop2 (effect i e).cnt := by
  by_cases hi : i = .recover
  · subst hi
    rfl
  · obtain ⟨-, -, -, -, hcand, -⟩ := effect_column i e
    obtain ⟨hcnt, h0, h1⟩ := hcand hi
    rw [hcnt, h0, h1]
    exact h.cand_of_cnt

theorem Engine.Inv.complete (hq : e.rngq.length = need i e) : (effect i e).finish.Inv where
  idle_queue _ := rfl
  queue_le := nofun
  pending_ok := nofun
  pending_keyed := nofun
  pending_unkeyed := nofun
  pending_lock := nofun
  keyed_written := h.effect_keyed_written hp hq
  fault_unkeyed := by simp [(h.pending_ok i hp).2]
  fault_err := by simp [h.pending_ok i hp]
  pbuf_wf := h.effect_pbuf.1
  pbuf_differ := h.effect_pbuf.2
  cand_of_cnt := h.effect_cand

end

end

/-- Every move of every agent keeps the invariant. -/
theorem Move.keeps_inv {s : State} {e : Engine} (hm : Move s e) (h : s.eng.Inv) : e.Inv := by
  cases hm with
  | still => exact h
  | reset => exact Engine.inv_reset
  | byte _ b _ _ hw => exact h.deliver hw
  | completion _ i hp hq => exact h.complete hp hq
  | dropped => exact { h with }
  | faulted _ _ _ _ hp hf => exact h.record hp h.fault_unkeyed (by simp [hf])
  | illegal _ _ _ _ hp hf => exact h.record hp h.fault_unkeyed (by simp [hf])
  | rejected _ _ _ _ hp _ _ _ c hc =>
    obtain ⟨hkey, hne⟩ := keyError_fatal hc
    exact h.record hp (by simpa using hkey) (by simp [hne])
  | accepted _ _ _ _ hp hf _ _ hc => exact h.accept hp hf hc
  | stored _ a v _ _ _ hp => exact h.store hp (locate a) v

/-- Settles O60: the moves are gone through one by one. -/
theorem everyStepKeepsTheInvariant : Obligations.EveryStepKeepsTheInvariant :=
  fun _ _ h hstep => (step_move hstep).keeps_inv h

end Sys2Proof.Machine
end

section
/-! The key schedule, once set (42_cipher.md §1). -/

namespace Sys2Proof.Machine

/-- A command pending while a schedule is set is none of the two that set one. -/
theorem Engine.Inv.not_setsSchedule {e : Engine} (h : e.Inv) (hk : e.keyv = true) {i : Instr}
    (hp : e.pend = some i) : i ≠ .keylock ∧ i ≠ .keyrand := by
  have hi : ¬setsSchedule i = true := fun hs =>
    Bool.false_ne_true ((h.pending_unkeyed i hp hs).symm.trans hk)
  constructor <;> (rintro rfl; exact hi rfl)

/-- From a state that meets the invariant, no move but the reset input touches a set schedule. -/
theorem Move.schedule_kept {s : State} {e : Engine} (hm : Move s e) (h : s.eng.Inv)
    (hk : s.eng.keyv = true) (hr : nextTurn s ≠ .reset) :
    e.keyv = true ∧ e.rkw = s.eng.rkw ∧ e.rk = s.eng.rk := by
  cases hm with
  | still | byte | dropped | faulted | illegal | rejected | accepted => exact ⟨hk, rfl, rfl⟩
  | reset hreset => exact absurd hreset hr
  | completion _ i hp =>
    obtain ⟨hlock, hrand⟩ := h.not_setsSchedule hk hp
    obtain ⟨-, hkeyv, hsched, -⟩ := effect_column i s.eng
    obtain ⟨hrk, hrkw⟩ := hsched hrand
    exact ⟨(hkeyv hlock hrand).trans hk, hrkw, hrk⟩
  | stored _ a v =>
    obtain ⟨hrk, hrkw⟩ := writeLoc_keyed (locate a) v s.eng hk
    exact ⟨(writeLoc_keyv ..).trans hk, hrkw, hrk⟩

/-- Settles O44: the commands that could write the schedule are not pending while it is set, and the
host's writes of round keys are dropped. -/
theorem keyScheduleImmutableOnceSet : Obligations.KeyScheduleImmutableOnceSet :=
  fun _ _ h hk hr hstep => (step_move hstep).schedule_kept h hk hr

end Sys2Proof.Machine
end

section
/-! Command words and their commands (30_encoding.md §2), and the check a configuration has to pass
(10_state.md R17). -/

namespace Sys2Proof.Machine

/-- Settles O1: the four words are read by the opcode map. -/
theorem wordsDecodeToTheirCommands : Obligations.WordsDecodeToTheirCommands :=
  ⟨decodeWord_encode .sub, decodeWord_encode .declr, decodeWord_encode .keylock,
    decodeWord_encode .recover⟩

/-- Settles O2: every command's word decodes to it, and no other word does. -/
theorem decodeIsInverseOfEncode : Obligations.DecodeIsInverseOfEncode :=
  fun _ i => ⟨eq_encode_of_decodeWord, fun h => h ▸ decodeWord_encode i⟩

/-- The check of R17 is that the tables undo each other in both orders: that no entry occurs twice
follows. -/
theorem sboxPair_wf_iff (t : SboxPair) : t.wf = true ↔
    (∀ x, nget t.sinv (nget t.sbox x) = x) ∧ (∀ x, nget t.sbox (nget t.sinv x) = x) := by
  simp only [SboxPair.wf, Bool.and_eq_true, decide_eq_true_eq, all_nibbles, beq_iff_eq]
  constructor
  · rintro ⟨⟨-, hback⟩, hforth⟩
    exact ⟨hback, hforth⟩
  · rintro ⟨hback, hforth⟩
    have hinj : Function.Injective (nget t.sbox) := Function.LeftInverse.injective hback
    have hnodup : t.sbox.toList.Nodup := by
      rw [toList_eq_map_nget]
      exact nibbles_nodup.map hinj
    exact ⟨⟨hnodup, hback⟩, hforth⟩

/-- Settles O48: the check fails just where the tables do not undo each other, and this build's pair
passes it. -/
theorem badConfigurationsAreRefused : Obligations.BadConfigurationsAreRefused := by
  refine ⟨fun t hbad => ?refused, fun t hback hforth hne => ?other, ?build⟩
  case refused =>
    have hwf : t.wf = false := Bool.eq_false_iff.2 fun hwf => hbad ((sboxPair_wf_iff t).1 hwf)
    simp [construct, hwf]
  case other =>
    have hwf : t.wf = true := (sboxPair_wf_iff t).2 ⟨hback, hforth⟩
    have hother : t ≠ buildTables := hne
    simp [construct, hwf, hother]
  case build =>
    have hwf : buildTables.wf = true := (sboxPair_wf_iff buildTables).2 ⟨sinv_sbox, sbox_sinv⟩
    have hconstruct : construct buildTables = .next State.reset := by simp [construct, hwf]
    exact hconstruct

end Sys2Proof.Machine
end

section
/-! The two diffusions (40_layers.md R60, R61): each a move of packed bits, and so inverse to each other
and linear. -/

namespace Sys2Proof.Machine

/-- Settles O27: the packed form, bit by bit. -/
theorem diffusionMovesPackedBits : Obligations.DiffusionMovesPackedBits := fun b =>
  ⟨fun _ => diffuse_getLsbD b, fun _ => inverseDiffuse_getLsbD b, diffuse_getLsbD_eleven b,
    inverseDiffuse_getLsbD_eleven b⟩

/-- Every bit of a diffused block below bit 11 comes from one bit: bit `i` from bit `6·i mod 11`. -/
theorem diffuse_getLsbD_source (b : Block) {i : Nat} (hi : i < 11) :
    (diffuse b).getLsbD i = b.getLsbD (6 * i % 11) := by
  have hsource : 2 * (6 * i % 11) % 11 = i := by omega
  rw [← diffuse_getLsbD b (i := 6 * i % 11) (by omega), hsource]

/-- Blocks are finite in number, so a left inverse of diffusion is its inverse. -/
theorem diffuse_inverseDiffuse (b : Block) : diffuse (inverseDiffuse b) = b := by
  have hleft : Function.LeftInverse inverseDiffuse diffuse := inverseDiffuse_diffuse
  have hsurj : Function.Surjective diffuse := Finite.surjective_of_injective hleft.injective
  exact hleft.rightInverse_of_surjective hsurj b

/-- A move of bits commutes with XOR. -/
theorem diffuse_xor (a b : Block) : diffuse (a ^^^ b) = diffuse a ^^^ diffuse b := by
  apply BitVec.eq_of_getLsbD_eq
  intro i hi
  rcases Nat.lt_or_ge i 11 with h | h
  · simp only [BitVec.getLsbD_xor, diffuse_getLsbD_source _ h]
  · obtain rfl : i = 11 := by omega
    simp only [BitVec.getLsbD_xor, diffuse_getLsbD_eleven]

/-- Settles O28: a round trip each way, and a move of bits that commutes with XOR. -/
theorem diffusionRoundTripAndLinear : Obligations.DiffusionRoundTripAndLinear :=
  ⟨inverseDiffuse_diffuse, diffuse_inverseDiffuse, diffuse_xor⟩

end Sys2Proof.Machine
end

section
/-! RECOVER at its edges (44_attack.md R98), and why the filter does not reach the counters (R99). -/

namespace Sys2Proof.Machine

open Sys2Proof.Spec

/-! ### No pairs, and no key mask -/

theorem countPairs_nil (tdf km : Block) : countPairs [] tdf km = tabulate fun _ => 0 :=
  table_ext fun k => by simp [countFor]

/-- An all-zero mask lets no bit of a guess through. -/
theorem hit_zero_mask (tdf : Block) (j k : Nibble) (pr : Pair) :
    hit tdf 0x000 j pr = hit tdf 0x000 k pr := by
  have hguess (x : Nibble) : guess 0x000 x = 0x000 := block_ext (by simp) (by simp) (by simp)
  rw [hit, hit, hguess, hguess]

/-- Settles O56: no pairs give zero counts, the generations that keep nothing are PAIRGEN's, and a
zero mask makes all guesses one. -/
theorem recoverDegenerateCases : Obligations.RecoverDegenerateCases := by
  refine ⟨countPairs_nil, selectTop2_zero, fun _ _ _ _ => rfl, generatePairs_zero_difference,
    fun rk d n q => ?zeroTarget, fun ps tdf j k => ?zeroMask, fun _ => selectTop2_equal⟩
  case zeroTarget =>
    rw [dmask_zero]
    exact generatePairs_zero_mask rk d n q
  case zeroMask =>
    rw [nget_countPairs, nget_countPairs, countFor_congr fun pr _ => hit_zero_mask tdf j k pr]

/-! ### Filters that keep every hit -/

/-- A pair that counts for some candidate differs wherever the target does: equal nibbles decrypt
equally under any guess. -/
theorem nib_ne_of_hit {tdf km : Block} {k : Nibble} {pr : Pair} (h : hit tdf km k pr = true)
    {p : Fin 3} (hp : nib tdf p ≠ 0) : nib (pr.c0 ^^^ pr.c1) p ≠ 0 := by
  intro hsame
  rw [nib_xor, BitVec.ofNat_eq_ofNat, BitVec.xor_eq_zero_iff] at hsame
  rw [← (hit_iff tdf km k pr).1 h p, ne_eq, sinv_xor_eq_zero_iff] at hp
  exact hp hsame

/-- A filter that every hit passes leaves the counters alone. -/
theorem countPairs_filter {f : Pair → Bool} {tdf km : Block}
    (hf : ∀ k pr, hit tdf km k pr = true → f pr = true) (ps : List Pair) :
    countPairs (ps.filter f) tdf km = countPairs ps tdf km := by
  refine table_ext fun k => ?_
  have hcount : countFor (ps.filter f) tdf km k = countFor ps tdf km k := by
    rw [countFor, countFor, List.countP_filter]
    refine List.countP_congr fun pr _ => ?_
    rw [Bool.and_eq_true]
    exact and_iff_left_of_imp (hf k pr)
  rw [nget_countPairs, nget_countPairs, hcount]

theorem exists_nib_ne_zero {b : Block} (h : b ≠ 0x000) : ∃ p : Fin 3, nib b p ≠ 0 := by
  simpa [block_eq_iff] using h

/-- The derived mask lets every bit through where the target difference is nonzero (R94). -/
theorem nib_dmask_and {tdf : Block} {p : Fin 3} (hp : nib tdf p ≠ 0) (n : Nibble) :
    nib (dmask tdf) p &&& n = n := by
  rw [nib_dmask, maskNibble, if_neg hp]
  exact BitVec.allOnes_and

/-- Every hit passes the weak filter of the derived mask. -/
theorem filterDiff_of_hit {tdf km : Block} {k : Nibble} {pr : Pair} (htdf : tdf ≠ 0x000)
    (h : hit tdf km k pr = true) : filterDiff (dmask tdf) (pr.c0 ^^^ pr.c1) = true := by
  obtain ⟨p, hp⟩ := exists_nib_ne_zero htdf
  refine (filterDiff_iff _ _).2 ⟨p, ?_⟩
  rw [nib_dmask_and hp]
  exact nib_ne_of_hit h hp

theorem pos_eq_zero_iff (b : Block) (p : Fin 3) : pos b p.val = 0 ↔ nib b p = 0 := by
  rw [pos, ← nib_toNat, ← BitVec.toNat_inj]
  rfl

/-- Every hit passes the strict filter. -/
theorem strictFilter_of_hit {tdf km : Block} {k : Nibble} {pr : Pair}
    (h : hit tdf km k pr = true) : strictFilter tdf pr = true := by
  rw [strictFilter, List.all_eq_true]
  intro n hn
  have hpos := pos_eq_zero_iff (p := ⟨n, List.mem_range.1 hn⟩)
  simp only [Bool.or_eq_true, beq_iff_eq, bne_iff_ne, ne_eq, hpos]
  exact or_iff_not_imp_left.2 (nib_ne_of_hit h)

/-- Settles O57: both filters keep every pair that counts. -/
theorem filterDoesNotChangeTheCounters : Obligations.FilterDoesNotChangeTheCounters :=
  fun ps _ _ htdf => ⟨countPairs_filter (fun _ _ => filterDiff_of_hit htdf) ps,
    countPairs_filter (fun _ _ => strictFilter_of_hit) ps⟩

end Sys2Proof.Machine
end

section
/-! The host port: reads while busy and reads of what cannot be read (20_memory.md R36; 60_exceptions.md
§4), a write read back (10_state.md R29), and the pseudo-instructions (30_encoding.md R49). -/

namespace Sys2Proof.Machine

open Sys2Proof.Spec

/-! ### Reads -/

theorem volatile_eq_false {a : Addr} (h : ¬VolatileAddr a) : volatile (locate a) = false :=
  Bool.eq_false_iff.2 fun hv => h ((volatile_locate_iff a).1 hv)

/-- Settles O10: the model's VOLATILE places are the listed addresses. -/
theorem busyReadsOfResultsAreDraws : Obligations.BusyReadsOfResultsAreDraws := by
  refine fun s a hb => ⟨fun hv => ?_, fun hv => hostRead_defined (.inr (volatile_eq_false hv))⟩
  obtain ⟨i, hp⟩ := (Engine.busy_eq_true _).1 hb
  exact hostRead_draw hp ((volatile_locate_iff a).2 hv)

/-- No place shows a round key: `RK0..RK3` themselves read 0. -/
theorem readLoc_setRk (l : Loc) (e : Engine) (rk : Vector Block 4) :
    readLoc l { e with rk := rk } = readLoc l e := by
  cases l <;> rfl

/-- Settles O14: a read whose value is specified is the read of a place, and none shows a round
key. -/
theorem hostReadsDoNotDependOnRoundKeys : Obligations.HostReadsDoNotDependOnRoundKeys := by
  intro s rk a h
  have hd : ¬(s.eng.busy = true ∧ VolatileAddr a) := fun ⟨hb, hv⟩ =>
    h.elim (fun hidle => Bool.false_ne_true ((Engine.busy_of_none _ hidle).symm.trans hb))
      (fun hnv => hnv hv)
  rw [hostRead_at hd rfl, ← readLoc_setRk (locate a) s.eng rk]
  exact hostRead_at (s := { s with eng := { s.eng with rk := rk } }) hd rfl

/-! ### A write read back -/

/-- An idle register keeps what a write stores, and the read of it says so. -/
theorem hostRead_hostWrite {a : Addr} {v : Word} {s : State} {l : Loc} {n : Nat} {x : BitVec n}
    (hidle : Idle s) (hl : locate a = l) (hc : l ≠ .cmd) (hn : n ≤ 32)
    (hx : readLoc l (writeLoc l v s.eng) = zext32 x) :
    ∃ t, hostWrite a v s = .next t ∧ (hostRead a t).1.toNat = x.toNat := by
  refine ⟨_, hostWrite_at ((Engine.busy_eq_false _).2 hidle) hl hc, ?_⟩
  have hb : (writeLoc l v s.eng).busy = false :=
    (Engine.busy_eq_false _).2 ((writeLoc_pend ..).trans hidle)
  exact hostRead_field hn (fun hbusy => Bool.false_ne_true (hb.symm.trans hbusy.1)) hl hx

/-- Settles O12: the seven registers one by one. -/
theorem writeThenReadGivesTheField : Obligations.WriteThenReadGivesTheField := by
  intro s a v hidle
  have hblock : v.toNat % 2 ^ 12 = (blockField v).toNat := by simp [blockField_eq_ofNat]
  have hcount : v.toNat % 2 ^ 16 = (countField v).toNat := by simp [countField_eq_ofNat]
  have register {m n : Nat} {x : BitVec n} (hn : n ≤ 32) (hm : m < 0x00C)
      (hc : locateLow m ≠ .cmd)
      (hx : readLoc (locateLow m) (writeLoc (locateLow m) v s.eng) = zext32 x) (h : a.toNat = m) :
      ∃ t, hostWrite a v s = .next t ∧ (hostRead a t).1.toNat = x.toNat :=
    hostRead_hostWrite hidle (locate_of_toNat_eq h hm) hc hn hx
  rw [hblock, hcount]
  refine ⟨fun hlo hhi => ?block, register (by decide) (by decide) nofun rfl⟩
  case block =>
    have ha : a.toNat = 2 ∨ a.toNat = 3 ∨ a.toNat = 4 ∨ a.toNat = 5 ∨ a.toNat = 6 ∨ a.toNat = 7 := by
      omega
    rcases ha with h | h | h | h | h | h <;>
      exact register (by decide) (by decide) (by decide) rfl h

/-! ### Pseudo-instructions -/

theorem doRead_status (s : State) :
    doRead 0x001 s = { s with rdata := statusWord s.eng } := by
  rw [doRead, hostRead_status]

/-- One turn of WAIT: it is over where bit 0 of the word read, BUSY, is clear. -/
theorem hostTurn_wait {s : State} {p : List HostOp} (hprog : s.prog = .wait :: p) :
    hostTurn s = .next { s with
      rdata := statusWord s.eng
      prog := if (statusWord s.eng).getLsbD 0 then s.prog else p } := by
  have hstatus : Loc.status.addr = 0x001 := rfl
  simp only [hostTurn, hprog, hstatus, hostRead_status, doRead_status]
  split
  · rw [← hprog]
  · rfl

/-- Settles O24: the expansions are the definitions, and WAIT looks at bit 0. -/
theorem pseudoInstructionsExpand : Obligations.PseudoInstructionsExpand := by
  refine ⟨fun _ => rfl, fun _ => rfl, rfl, fun _ _ _ _ => rfl, fun s p hprog => ?_⟩
  rw [hostTurn_wait hprog, hostRead_status, getLsbD_eq_decide, pow_zero, Nat.div_one]
  rcases Nat.mod_two_eq_zero_or_one (statusWord s.eng).toNat with h | h <;> simp [h]

end Sys2Proof.Machine
end

section
/-! The step, agent by agent: no move stops the machine, and whose move it is decides what it is
(10_state.md R13; 60_exceptions.md R107, R113). -/

namespace Sys2Proof.Machine

open Sys2Proof.Spec

/-! ### The RNG's move -/

theorem rngTurn_delivers {s : State} {b : Byte} {q : List Byte} (hr : s.rng = b :: q)
    (hw : s.eng.wantsByte = true) :
    rngTurn s = .next { s with rng := q, eng := { s.eng with rngq := s.eng.rngq ++ [b] } } := by
  simp [rngTurn, hr, hw]

theorem rngTurn_passes {s : State} (hw : s.eng.wantsByte = false) : rngTurn s = .next s := by
  cases hr : s.rng <;> simp [rngTurn, hr, hw]

theorem rngTurn_empty {s : State} (hr : s.rng = []) : rngTurn s = .next s := by
  simp [rngTurn, hr]

/-- Settles O20: a byte is wanted just where the pending command has too few. -/
theorem rngDeliversOnlyWantedBytes : Obligations.RngDeliversOnlyWantedBytes := by
  intro s b q hr
  refine ⟨fun i hp hlt => rngTurn_delivers hr ((wantsByte_iff _).2 ⟨i, hp, hlt⟩),
    fun i hp hle => ?enough, fun hidle => ?idle⟩
  case enough => exact rngTurn_passes (by simpa [Engine.wantsByte, hp] using hle)
  case idle =>
    have hp : s.eng.pend = none := hidle
    exact rngTurn_passes (by simp [Engine.wantsByte, hp])

/-! ### No move stops the machine -/

theorem rngTurn_next (s : State) : ∃ t, rngTurn s = .next t := by
  cases hr : s.rng with
  | nil => exact ⟨_, rngTurn_empty hr⟩
  | cons b q =>
    cases hw : s.eng.wantsByte with
    | true => exact ⟨_, rngTurn_delivers hr hw⟩
    | false => exact ⟨_, rngTurn_passes hw⟩

theorem engineTurn_idle {s : State} (hp : s.eng.pend = none) : engineTurn s = .next s := by
  simp [engineTurn, hp]

theorem engineTurn_next (s : State) : ∃ t, engineTurn s = .next t := by
  cases hp : s.eng.pend with
  | none => exact ⟨_, engineTurn_idle hp⟩
  | some i =>
    rw [engineTurn_pending hp]
    exact exec_next i s

theorem hostWrite_next (a : Addr) (v : Word) (s : State) : ∃ t, hostWrite a v s = .next t := by
  cases hp : s.eng.pend with
  | some i => exact ⟨_, hostWrite_busy hp⟩
  | none =>
    by_cases ha : a = 0x000
    · exact ⟨_, ha ▸ hostWrite_cmd_eq_issued hp⟩
    · exact ⟨_, hostWrite_stored hp ha⟩

theorem hostTurn_next (s : State) : ∃ t, hostTurn s = .next t := by
  match hprog : s.prog with
  | [] | .read _ :: _ => simp [hostTurn, hprog]
  | .write a v :: p =>
    simp only [hostTurn, hprog]
    exact hostWrite_next a v _
  | .wait :: p =>
    exact ⟨_, hostTurn_wait hprog⟩

/-- Settles O6: the moves of the four agents one by one. -/
theorem everyStepAnswersNext : Obligations.EveryStepAnswersNext := by
  intro s
  rw [step_eq]
  cases nextTurn s with
  | host => exact hostTurn_next _
  | rng => exact rngTurn_next _
  | engine => exact engineTurn_next _
  | reset => exact ⟨_, rfl⟩

/-! ### Whose move it is -/

theorem step_of_rng {s : State} (hn : nextTurn s = .rng) :
    step s = rngTurn { s with turns := s.turns.tail } := by
  rw [step_eq, hn]
  rfl

theorem step_of_engine {s : State} (hn : nextTurn s = .engine) :
    step s = engineTurn { s with turns := s.turns.tail } := by
  rw [step_eq, hn]
  rfl

theorem step_of_host {s : State} (hn : nextTurn s = .host) :
    step s = hostTurn { s with turns := s.turns.tail } := by
  rw [step_eq, hn]
  rfl

theorem step_of_reset {s : State} (hn : nextTurn s = .reset) :
    step s = .next { s with turns := s.turns.tail, eng := Engine.reset } := by
  rw [step_eq, hn]
  rfl

theorem hostTurn_read {s : State} {a : Addr} {p : List HostOp} (hprog : s.prog = .read a :: p) :
    hostTurn s = .next (doRead a { s with prog := p }) := by
  simp only [hostTurn, hprog]

theorem hostTurn_done {s : State} (hprog : s.prog = []) : hostTurn s = .next s := by
  simp only [hostTurn, hprog]

/-- Settles O4: the host's move is its next transaction's, and the others' moves are their own. -/
theorem stepRunsWrittenCommand : Obligations.StepRunsWrittenCommand := by
  refine ⟨fun s p hn => ⟨fun w i hprog hidle hw => ?command, fun a v => step_of_host_write hn,
    fun a hprog => ?read, fun _ => step_of_host hn, fun hprog => ?done⟩, fun _ => step_of_rng,
    fun _ => step_of_engine⟩
  case command =>
    rw [step_of_host_write hn hprog]
    exact (hostWrite_cmd (s := { s with turns := s.turns.tail, prog := p }) hidle).trans
      (issueWord_legal hw _)
  case read =>
    rw [step_of_host hn]
    exact hostTurn_read hprog
  case done =>
    rw [step_of_host hn]
    exact hostTurn_done hprog

theorem step_of_pending {s : State} {i : Instr} (hn : nextTurn s = .engine)
    (hp : s.eng.pend = some i) : step s = exec i { s with turns := s.turns.tail } := by
  rw [step_of_engine hn]
  exact engineTurn_pending hp

/-- Settles O5: the engine's move is the pending command's `exec`. -/
theorem stepRunsPendingCommand : Obligations.StepRunsPendingCommand := fun _ _ => step_of_pending

end Sys2Proof.Machine
end

section
/-! The frame of every command (30_encoding.md R52): at issue, where it waits, and at completion. -/

namespace Sys2Proof.Machine

open Sys2Proof.Spec

/-- A command that does not complete changes ERR, FAULT and the pending command alone, and FAULT only
where it asks for a key schedule. -/
theorem exec_completes_or_frame {i : Instr} {s t : State} (h : exec i s = .next t) :
    t = { s with eng := (effect i s.eng).finish } ∨
      ∃ (c : ErrKind) (b : Bool) (p : Option Instr),
        t = { s with eng := { s.eng with err := c, fault := b, pend := p } } ∧
          (keyRule i ≠ .required → b = s.eng.fault) := by
  rcases exec_cases h with ⟨rfl, -⟩ | ⟨-, -, rfl⟩ | ⟨-, -, rfl⟩ | ⟨-, hf, c, hc, rfl⟩ |
    ⟨-, -, -, rfl⟩
  · exact .inr ⟨_, _, _, rfl, fun _ => rfl⟩
  · exact .inl rfl
  · exact .inr ⟨_, _, _, rfl, fun _ => rfl⟩
  · refine .inr ⟨_, _, _, rfl, fun hne => ?_⟩
    have hcode : c ≠ .nokey := by
      rcases keyError_cases hc with ⟨-, hr, -⟩ | ⟨rfl, -⟩ | ⟨rfl, -⟩
      · exact absurd hr hne
      · exact nofun
      · exact nofun
    simp [hcode, hf]
  · exact .inr ⟨_, _, _, rfl, fun _ => rfl⟩

/-- Settles O58: either the command completes, and its effect keeps to its column, or it changes ERR,
FAULT and the pending command at most. -/
theorem commandsWriteOnlyTheirColumn : Obligations.CommandsWriteOnlyTheirColumn := by
  intro i s t h
  rcases exec_completes_or_frame h with rfl | ⟨c, b, p, rfl, hfault⟩
  · obtain ⟨hopa, hopb, hidiff, htdiff, hfmask, hkmask, hnsamp, hwdb, hwdl, -, hf⟩ :=
      effect_frame i s.eng
    obtain ⟨hresult, hkeyv, hsched, hpbuf, hcnt, hnpairs⟩ := effect_column i s.eng
    refine ⟨⟨rfl, rfl, rfl, rfl, rfl⟩, ⟨hopa, hopb, hidiff, htdiff, hfmask, hkmask, hnsamp⟩,
      ⟨hwdb, hwdl⟩, fun _ => hf, hresult, hkeyv, hsched, fun hi => ?_, hcnt, hnpairs⟩
    obtain ⟨hpovf, hsame⟩ := hpbuf hi
    exact ⟨hpovf, fun n => congrArg (Memory.read · n) hsame⟩
  · exact ⟨⟨rfl, rfl, rfl, rfl, rfl⟩, ⟨rfl, rfl, rfl, rfl, rfl, rfl, rfl⟩, ⟨rfl, rfl⟩,
      fun hi => hfault (mt (keyRule_eq_required_iff i).1 hi), fun _ => rfl, fun _ _ => rfl,
      fun _ => ⟨rfl, rfl⟩, fun _ => ⟨rfl, fun _ => rfl⟩, fun _ => ⟨rfl, rfl, rfl⟩, fun _ _ => rfl⟩

end Sys2Proof.Machine
end

section
/-! The sticky bits: KEYV and FAULT until reset (70_reset_and_hazards.md R119), WDB and WDL until the
host clears them (60_exceptions.md R103, 10_state.md R28). -/

namespace Sys2Proof.Machine

open Sys2Proof.Spec

/-! ### KEYV -/

/-- No move but the reset input clears KEYV. -/
theorem Move.keyv_kept {s : State} {e : Engine} (h : Move s e) (hr : nextTurn s ≠ .reset)
    (hk : s.eng.keyv = true) : e.keyv = true := by
  cases h with
  | still | byte | dropped | faulted | illegal | rejected | accepted => exact hk
  | reset hreset => exact absurd hreset hr
  | completion _ i => exact effect_keyv_kept i hk
  | stored => exact (writeLoc_keyv ..).trans hk

/-- Settles O8: the reset move is the reset engine, and no other clears FAULT or KEYV. -/
theorem resetAbandonsEverythingAndAloneClears : Obligations.ResetAbandonsEverythingAndAloneClears :=
  ⟨fun _ => step_of_reset, fun _ _ h hr => ⟨(step_move h).fault_kept hr, (step_move h).keyv_kept hr⟩⟩

/-! ### WDB and WDL -/

/-- A write to an idle engine clears WDB at most: a write to `STATUS` whose bit 7 is set. -/
theorem writeLoc_wdb (l : Loc) (v : Word) (e : Engine) :
    (writeLoc l v e).wdb = (e.wdb && !(decide (l = .status) && v.getLsbD 7)) := by
  cases l with
  | rk r => cases hk : e.keyv <;> simp [writeLoc, rkWrite, hk]
  | _ => simp [writeLoc]

/-- Only a write to `STATUS` whose bit 8 is set clears WDL. -/
theorem writeLoc_wdl_kept {l : Loc} {v : Word} {e : Engine} (h : e.wdl = true)
    (hclear : l = .status → v.getLsbD 8 = false) : (writeLoc l v e).wdl = true := by
  cases l with
  | status =>
    rw [writeLoc, statusWrite_wdl, h, hclear rfl]
    rfl
  | rk r => cases hk : e.keyv <;> simp [writeLoc, rkWrite, hk, h]
  | _ => exact h

section
variable {s : State} {e : Engine} (hm : Move s e) (hr : nextTurn s ≠ .reset)
include hm hr

theorem Move.wdb_kept (h : s.eng.wdb = true)
    (hclear : ∀ v, NextWriteTaken 0x001 v s → v.getLsbD 7 = false) : e.wdb = true := by
  cases hm with
  | still | byte | faulted | illegal | rejected | accepted => exact h
  | dropped => rfl
  | reset hreset => exact absurd hreset hr
  | completion => simpa using h
  | stored hn a v p hprog _ hp =>
    have hbit : locate a = .status → v.getLsbD 7 = false := fun hl =>
      hclear v ⟨hn, ⟨p, locate_eq_status hl ▸ hprog⟩, hp⟩
    rw [writeLoc_wdb, h]
    by_cases hl : locate a = .status
    · simp only [hbit hl, Bool.and_false, Bool.not_false, Bool.and_true]
    · simp only [hl, decide_false, Bool.false_and, Bool.not_false, Bool.and_true]

theorem Move.wdl_kept (h : s.eng.wdl = true)
    (hclear : ∀ v, NextWriteTaken 0x001 v s → v.getLsbD 8 = false) : e.wdl = true := by
  cases hm with
  | still | byte | dropped | faulted | illegal | rejected | accepted => exact h
  | reset hreset => exact absurd hreset hr
  | completion => simpa using h
  | stored hn a v p hprog _ hp =>
    exact writeLoc_wdl_kept h fun hl => hclear v ⟨hn, ⟨p, locate_eq_status hl ▸ hprog⟩, hp⟩

end

theorem getLsbD_eq_false_of_div_mod {v : Word} {n : Nat} (h : v.toNat / 2 ^ n % 2 = 0) :
    v.getLsbD n = false := by
  rw [getLsbD_eq_decide, h]
  rfl

/-- Settles O18: the moves are gone through one by one; a taken write clears a flag at `STATUS`
alone. -/
theorem writeFlagsStayUntilCleared : Obligations.WriteFlagsStayUntilCleared := fun _ _ h hr =>
  ⟨fun hset hclear =>
    (step_move h).wdb_kept hr hset fun v hv => getLsbD_eq_false_of_div_mod (hclear v hv),
  fun hset hclear =>
    (step_move h).wdl_kept hr hset fun v hv => getLsbD_eq_false_of_div_mod (hclear v hv)⟩

end Sys2Proof.Machine
end

section
/-! A pending command: the engine's step (30_encoding.md R55), the stalled RNG (70_reset_and_hazards.md
R122), operands that stay, and the two orders of a host write and a completion (20_memory.md R42). -/

namespace Sys2Proof.Machine

open Sys2Proof.Spec

/-! ### The engine's step -/

/-- Column "RNG" of R52. -/
theorem need_eq (i : Instr) (e : Engine) : need i e =
    if i = .keyrand then 12
    else if i = .pairgen ∨ i = .recover then 3 * e.nsamp.toNat else 0 := by
  cases i <;> rfl

/-- What a command does while the engine is idle is its issue: ERR, FAULT and the pending command. -/
theorem exec_idle_frame {i : Instr} {s t : State} (hidle : s.eng.pend = none)
    (h : exec i s = .next t) : (t.eng.pend = none ∨ t.eng.pend = some i) ∧
      t = { s with eng :=
        { s.eng with err := t.eng.err, fault := t.eng.fault, pend := t.eng.pend } } := by
  rw [exec_idle hidle] at h
  rcases issue_cases h with ⟨-, rfl⟩ | ⟨-, _, -, rfl⟩ | ⟨-, -, rfl⟩
  · exact ⟨.inl hidle, rfl⟩
  · exact ⟨.inl hidle, rfl⟩
  · exact ⟨.inr rfl, rfl⟩

/-- Settles O19: the engine's move is the pending command's `exec`, which waits or completes. -/
theorem completionIsTheEnginesOnlyStep : Obligations.CompletionIsTheEnginesOnlyStep := by
  refine ⟨fun e i => need_eq i e, fun _ => engineTurn_idle, fun s i hp hq => ?waits,
    fun s i hp hq => ⟨engineTurn_pending hp, _, completes_effect hp hq⟩,
    fun _ _ _ => exec_idle_frame⟩
  case waits => rw [engineTurn_pending hp, exec_waits hp (.inr hq)]

/-! ### Every move while a command is pending -/

/-- What a step can do to a busy engine. -/
theorem Move.of_pending {s : State} {e : Engine} {i : Instr} (hm : Move s e)
    (hp : s.eng.pend = some i) :
    e = s.eng ∨ e = { s.eng with wdb := true } ∨ (nextTurn s = .reset ∧ e = Engine.reset) ∨
      (∃ b q, s.rng = b :: q ∧ e = { s.eng with rngq := s.eng.rngq ++ [b] }) ∨
      (s.eng.rngq.length = need i s.eng ∧ e = (effect i s.eng).finish) := by
  cases hm with
  | still => exact .inl rfl
  | dropped => exact .inr (.inl rfl)
  | reset hr => exact .inr (.inr (.inl ⟨hr, rfl⟩))
  | byte _ b q hrng => exact .inr (.inr (.inr (.inl ⟨b, q, hrng, rfl⟩)))
  | completion _ j hj hq =>
    obtain rfl : i = j := Option.some.inj (hp.symm.trans hj)
    exact .inr (.inr (.inr (.inr ⟨hq, rfl⟩)))
  | faulted _ _ _ _ hidle | illegal _ _ _ _ hidle | rejected _ _ _ _ hidle
  | accepted _ _ _ _ hidle | stored _ _ _ _ _ _ hidle => exact absurd (hp.symm.trans hidle) nofun

/-- Settles O23: of the moves that a busy engine sees, those that leave the command pending write WDB
or the delivered bytes. -/
theorem operandsStableWhileBusy : Obligations.OperandsStableWhileBusy := by
  intro s t i hp hstep hstill
  rcases (step_move hstep).of_pending hp with he | he | ⟨-, he⟩ | ⟨b, q, -, he⟩ | ⟨-, he⟩ <;>
    rw [he] at hstill ⊢
  · exact absurd hstill nofun
  · exact absurd hstill nofun

/-! ### The stalled RNG -/

theorem defaultTurn_ne_reset (s : State) : defaultTurn s ≠ .reset := by
  unfold defaultTurn
  split_ifs <;> decide

theorem nextTurn_ne_reset {s : State} (h : Turn.reset ∉ s.turns) : nextTurn s ≠ .reset := by
  cases hts : s.turns with
  | nil =>
    have hdefault : nextTurn s = defaultTurn s := by simp [nextTurn, hts]
    rw [hdefault]
    exact defaultTurn_ne_reset s
  | cons u ts =>
    rw [nextTurn_cons hts]
    rintro rfl
    exact h (by simp [hts])

/-- With bytes missing and none to come, no move but the reset input ends the command. -/
theorem Move.stalled {s : State} {e : Engine} {i : Instr} (hm : Move s e)
    (hp : s.eng.pend = some i) (hlt : s.eng.rngq.length < need i s.eng) (hrng : s.rng = [])
    (hr : nextTurn s ≠ .reset) : e.pend = some i ∧ e.rngq.length < need i e := by
  rcases hm.of_pending hp with rfl | rfl | ⟨hreset, -⟩ | ⟨b, q, hcons, -⟩ | ⟨hq, -⟩
  · exact ⟨hp, hlt⟩
  · exact ⟨hp, hlt⟩
  · exact absurd hreset hr
  · exact absurd (hrng.symm.trans hcons) nofun
  · exact absurd hq (Nat.ne_of_lt hlt)

/-- Settles O21: a step there always is, and it can neither deliver, complete nor reset. -/
theorem stalledCommandStaysBusy : Obligations.StalledCommandStaysBusy := by
  intro s i hp hlt hrng hturns
  obtain ⟨t, hstep⟩ := everyStepAnswersNext s
  obtain ⟨hpend, hshort⟩ := (step_move hstep).stalled hp hlt hrng (nextTurn_ne_reset hturns)
  obtain ⟨htail, hstream⟩ := step_env hstep
  refine ⟨t, hstep, hpend, hshort, ?silent, fun hmem => hturns ?noReset⟩
  case silent =>
    rcases hstream with hsame | ⟨b, hcons⟩
    · exact hsame.trans hrng
    · exact absurd (hrng.symm.trans hcons) nofun
  case noReset =>
    rw [htail] at hmem
    exact List.mem_of_mem_tail hmem

/-! ### A host write and a completion -/

theorem step_of_completion {s : State} {i : Instr} (hn : nextTurn s = .engine)
    (hp : s.eng.pend = some i) (hq : s.eng.rngq.length = need i s.eng) :
    step s = .next { s with turns := s.turns.tail, eng := (effect i s.eng).finish } := by
  rw [step_of_pending hn hp]
  exact exec_completes hp hq

theorem step_of_dropped_write {s : State} {i : Instr} {a : Addr} {v : Word} {p : List HostOp}
    (hn : nextTurn s = .host) (hprog : s.prog = .write a v :: p) (hp : s.eng.pend = some i) :
    step s = .next { s with
      turns := s.turns.tail, prog := p, eng := { s.eng with wdb := true } } := by
  rw [step_of_host_write hn hprog]
  exact hostWrite_busy hp

/-- No command reads or writes WDB: its effect commutes with setting it. -/
theorem effect_setWdb (i : Instr) (e : Engine) (b : Bool) :
    effect i { e with wdb := b } = { effect i e with wdb := b } := by
  cases i with
  | keyrand =>
    simp only [effect, keyrandEffect]
    split <;> rfl
  | _ => rfl

theorem issued_wdb (w : Word) (e : Engine) : (issued w e).wdb = e.wdb := by
  unfold issued
  split_ifs <;> rfl

/-- A write that is taken never sets WDB. -/
theorem wdb_of_hostWrite_idle {a : Addr} {v : Word} {s t : State} (hidle : Idle s)
    (h : hostWrite a v s = .next t) (hset : t.eng.wdb = true) : s.eng.wdb = true := by
  by_cases ha : a = 0x000
  · subst ha
    rw [hostWrite_cmd_eq_issued hidle] at h
    cases h
    exact (issued_wdb v s.eng).symm.trans hset
  · rw [hostWrite_stored hidle ha] at h
    cases h
    rw [writeLoc_wdb, Bool.and_eq_true] at hset
    exact hset.1

/-- What a write that is taken leaves of the engine: at CMD, at OPA, at a round key, and at a place
that ignores it. -/
theorem eng_of_hostWrite_idle {a : Addr} {v : Word} {s t : State} (hidle : Idle s)
    (h : hostWrite a v s = .next t) :
    (a.toNat = 0x000 → t.eng = issued v s.eng) ∧
      (a.toNat = 0x002 → t.eng = { s.eng with opa := BitVec.ofNat 12 v.toNat }) ∧
      (∀ r : BitVec 2, a.toNat = 0x020 + r.toNat → t.eng = rkWrite r v s.eng) ∧
      (ReadOnlyAddr a ∨ UnmappedAddr a → t.eng = s.eng) := by
  have heng {e : Engine} (he : hostWrite a v s = .next { s with eng := e }) : t.eng = e :=
    congrArg State.eng (Host.Outcome.next.inj (h.symm.trans he))
  obtain ⟨-, hstores⟩ := hostWriteStoresByAddress s a v
  obtain ⟨hcmd, -, hopa, -, -, -, -, -, -, hrk, hkept⟩ := hstores ((Engine.busy_eq_false _).2 hidle)
  exact ⟨fun ha => heng ((hcmd ha).trans (issueWord_eq_issued v hidle)), fun ha => heng (hopa ha),
    fun r ha => heng (hrk r ha), fun ha => heng (hkept ha)⟩

/-- Settles O22: a write before the completion is dropped, and the effect does not see WDB; a write
after it finds the engine idle and is a host write like any other. -/
theorem writeBeforeCompletionIsDroppedAfterItIsTaken :
    Obligations.WriteBeforeCompletionIsDroppedAfterItIsTaken := by
  intro s i a v p ts hp hq hprog
  obtain ⟨t', ht'⟩ :=
    hostWrite_next a v { s with turns := ts, prog := p, eng := (effect i s.eng).finish }
  have hsecond : step { s with turns := .host :: ts, eng := (effect i s.eng).finish } = .next t' := by
    rw [step_of_host_write (by rfl) (by exact hprog)]
    exact ht'
  have hidle : Idle { s with turns := ts, prog := p, eng := (effect i s.eng).finish } := rfl
  have hstores := eng_of_hostWrite_idle hidle ht'
  obtain ⟨hprog', -⟩ := hostWrite_env ht'
  refine ⟨_, _, _, t', step_of_dropped_write rfl hprog hp, step_of_completion rfl hp hq,
    step_of_completion rfl hp hq, hsecond, rfl, hprog', rfl,
    effect_opa i s.eng, effect_wdb i s.eng, ?dropped, ht', fun hset => ?unset, hstores⟩
  case dropped => exact congrArg Engine.finish (effect_setWdb i s.eng true)
  case unset => exact (effect_wdb i s.eng).symm.trans (wdb_of_hostWrite_idle hidle ht' hset)

end Sys2Proof.Machine
end
